-- ==== Sys2Proof/Word.lean ====
section
/-! DEFINITION. The word of the machine and the three number conversions of rule R8 (00_scope.md). -/

namespace Sys2Proof

/-- A 32-bit pattern: a general register, a data-memory cell, an instruction word (R6, R8, R60).
Its value as a signed number is `BitVec.toInt`, its value as a pattern `BitVec.toNat`. -/
abbrev Word := BitVec 32

/-- The index of a general register, 0 to 31 (R20, R22). -/
abbrev Reg := Fin 32

/-- `s32(p)` of R8: the two's-complement reading of a pattern `p` in 0..2^32-1. -/
def s32 (p : Nat) : Int := if p < 2 ^ 31 then (p : Int) else (p : Int) - 2 ^ 32

/-- `u32(v) = v mod 2^32` of R8: the pattern of an integer. -/
def u32 (v : Int) : Nat := (v % 2 ^ 32).toNat

/-- `wrap32(v) = s32(u32(v))` of R8: any integer brought into the signed 32-bit range. -/
def wrap32 (v : Int) : Int := s32 (u32 v)

end Sys2Proof
end

