-- ==== Sys2Proof/Config.lean ====
section
/-! DEFINITION. What is fixed for a run: the sizes of R6 (00_scope.md) and the parameters of a launch
(R6, R31, R190). The spec leaves no value open, so there is no free value here. -/

namespace Sys2Proof.Config

/-- `MEM_WORDS`: the number of data-memory cells (R6, R40). -/
def memWords : Nat := 256

/-- The bound on `PROG_LEN` (R6; the spec's decision D2). -/
def progMax : Nat := 2 ^ 30

/-- `MODE`, the run mode: one of the two literal strings `Run_All` and `Single_Step` (R6, R158). -/
inductive Mode where
  | runAll
  | singleStep
deriving DecidableEq, Repr

/-- The parameters of a launch (R6): `REG_INIT` and `MEM_INIT` as the lines the loader hands over (line `i`
initialises register or cell `i`; a missing line leaves the default, zero: R31), `PROG` (line `i` is
`Prog[i]` and the number of lines is `PROG_LEN`: R32), and `MODE`. -/
structure Launch where
  regInit : List Word := []
  memInit : List Word := []
  prog    : List Word := []
  mode    : Mode := .runAll
deriving DecidableEq, Repr

end Sys2Proof.Config
end

