-- ==== Sys2Proof/Syntax.lean ====
section
/-! DEFINITION. The instruction set as data: the decoder's fields (R65), the three formats (R66), the ten
operations, and the ten instructions with their operands (R71, R75; 30_encoding.md). -/

namespace Sys2Proof

/-- The decoder's eight fields of a word, all produced at once whatever the word's format (R65). -/
structure Fields where
  opcode : BitVec 6
  rs     : BitVec 5
  rt     : BitVec 5
  rd     : BitVec 5
  shamt  : BitVec 5
  funct  : BitVec 6
  imm    : BitVec 16
  addr26 : BitVec 26
deriving DecidableEq, Repr

/-- "format tag ∈ {R-Type, I-Type, J-Type}" (R66). -/
inductive Format where
  | rType
  | iType
  | jType
deriving DecidableEq, Repr

/-- The ten operations by name (R2): the "operation name" of a trace record is the mnemonic (R153). -/
inductive Op where
  | sll
  | srl
  | add
  | sub
  | and
  | or
  | j
  | beq
  | lw
  | sw
deriving DecidableEq, Repr

/-- Why a word is none of the ten instructions: "unrecognized opcode, or opcode 0 with unrecognized funct"
(R72, R171), with the field that is not recognised. -/
inductive Illegal where
  | opcode (value : BitVec 6)
  | funct (value : BitVec 6)
deriving DecidableEq, Repr

/-- An instruction with its operands in the order of the spec's syntax (R75). A field the instruction ignores
(R71: `shamt` of the four arithmetic and logic instructions, `rs` of the two shifts) is kept as plain bits,
last, so that an instruction stands for exactly one word; no meaning reads it but for the word it shows in
the trace record (R153). Every operand has the width of its field, so every term is well formed. -/
inductive Instr where
  /-- `sll rd, rt, shamt` (R121). -/
  | sll (rd rt : Reg) (shamt : BitVec 5) (rsIgn : BitVec 5)
  /-- `srl rd, rt, shamt` (R122). -/
  | srl (rd rt : Reg) (shamt : BitVec 5) (rsIgn : BitVec 5)
  /-- `add rd, rs, rt` (R111). -/
  | add (rd rs rt : Reg) (shamtIgn : BitVec 5)
  /-- `sub rd, rs, rt` (R112). -/
  | sub (rd rs rt : Reg) (shamtIgn : BitVec 5)
  /-- `and rd, rs, rt` (R113). -/
  | and (rd rs rt : Reg) (shamtIgn : BitVec 5)
  /-- `or rd, rs, rt` (R114). -/
  | or (rd rs rt : Reg) (shamtIgn : BitVec 5)
  /-- `j n` (R141). -/
  | j (addr26 : BitVec 26)
  /-- `beq rs, rt, k`, the offset as the 16-bit field (R142). -/
  | beq (rs rt : Reg) (imm : BitVec 16)
  /-- `lw rt, imm(rs)` (R132). -/
  | lw (rt rs : Reg) (imm : BitVec 16)
  /-- `sw rt, imm(rs)` (R133). -/
  | sw (rt rs : Reg) (imm : BitVec 16)
deriving DecidableEq, Repr

/-- The operation of an instruction. -/
def Instr.op : Instr → Op
  | .sll .. => .sll
  | .srl .. => .srl
  | .add .. => .add
  | .sub .. => .sub
  | .and .. => .and
  | .or .. => .or
  | .j .. => .j
  | .beq .. => .beq
  | .lw .. => .lw
  | .sw .. => .sw

end Sys2Proof
end

