-- ==== Sys2Proof/WellFormed.lean ====
section
/-! DEFINITION. The checks on terms that need one. `Instr` needs none: each operand has its field's width
(R22, R65), so a register index is in 0..31 and a shift distance in 0..31 by its type (R123, R174). A field
set needs its fields to overlap as cuts of one word do (R65); a launch needs its images to fit (R6, R31). -/

namespace Sys2Proof

/-- R65: `imm = rd * 2048 + shamt * 64 + funct`. -/
def Fields.immOverlaps (f : Fields) : Bool :=
  f.imm.toNat == f.rd.toNat * 2048 + f.shamt.toNat * 64 + f.funct.toNat

/-- R65: `addr26 = rs * 2^21 + rt * 2^16 + imm`. -/
def Fields.addrOverlaps (f : Fields) : Bool :=
  f.addr26.toNat == f.rs.toNat * 2 ^ 21 + f.rt.toNat * 2 ^ 16 + f.imm.toNat

/-- A field set that some word has (R65). -/
def Fields.wf (f : Fields) : Bool := f.immOverlaps && f.addrOverlaps

namespace Config

/-- `REG_INIT` has at most 32 lines (R31: "fewer than 32 lines leaves remaining registers at their default"). -/
def Launch.regsFit (l : Launch) : Bool := decide (l.regInit.length ≤ 32)

/-- `MEM_INIT` has "up to 256 entries" (R31). -/
def Launch.memFits (l : Launch) : Bool := decide (l.memInit.length ≤ memWords)

/-- `PROG_LEN <= 2^30` (R6; the spec's decision D2). -/
def Launch.progFits (l : Launch) : Bool := decide (l.prog.length ≤ progMax)

/-- A launch the hardware can make (R6, R31). -/
def Launch.wf (l : Launch) : Bool := l.regsFit && l.memFits && l.progFits

end Config
end Sys2Proof
end

