-- ==== Sys2Proof/Decode.lean ====
section
/-! DEFINITION. The decoder (R64, R65), the dispatch on opcode and funct (R68 to R70), the encoder (R77), and the
rows of the opcode map (R71). -/

namespace Sys2Proof

/-- The field extraction of R65: the decoder is combinational, total, and cannot fail (R64). Each cut is given by its
lowest bit and its width, so `opcode` is `w[31:26]`. -/
def extract (w : Word) : Fields where
  opcode := w.extractLsb' 26 6
  rs     := w.extractLsb' 21 5
  rt     := w.extractLsb' 16 5
  rd     := w.extractLsb' 11 5
  shamt  := w.extractLsb' 6 5
  funct  := w.extractLsb' 0 6
  imm    := w.extractLsb' 0 16
  addr26 := w.extractLsb' 0 26

/-- A 5-bit field used as a register index; it is always in 0..31 (R22, R174). -/
def regOf (b : BitVec 5) : Reg := b.toFin

/-- The field a register index stands in. -/
def regBits (r : Reg) : BitVec 5 := BitVec.ofFin r

/-- The R-type group, chosen by funct (R70); every other value is illegal (R72). -/
def dispatchFunct (f : Fields) : Except Illegal Instr :=
  match f.funct with
  | 0  => .ok (.sll (regOf f.rd) (regOf f.rt) f.shamt f.rs)
  | 2  => .ok (.srl (regOf f.rd) (regOf f.rt) f.shamt f.rs)
  | 32 => .ok (.add (regOf f.rd) (regOf f.rs) (regOf f.rt) f.shamt)
  | 34 => .ok (.sub (regOf f.rd) (regOf f.rs) (regOf f.rt) f.shamt)
  | 36 => .ok (.and (regOf f.rd) (regOf f.rs) (regOf f.rt) f.shamt)
  | 37 => .ok (.or (regOf f.rd) (regOf f.rs) (regOf f.rt) f.shamt)
  | other => .error (.funct other)

/-- "Dispatch is opcode-first, then funct for opcode 0 (R-type)" (R68), with the opcode values of R69; every
other value is illegal (R72). -/
def dispatch (f : Fields) : Except Illegal Instr :=
  match f.opcode with
  | 0  => dispatchFunct f
  | 2  => .ok (.j f.addr26)
  | 4  => .ok (.beq (regOf f.rs) (regOf f.rt) f.imm)
  | 35 => .ok (.lw (regOf f.rt) (regOf f.rs) f.imm)
  | 43 => .ok (.sw (regOf f.rt) (regOf f.rs) f.imm)
  | other => .error (.opcode other)

/-- The instruction a word is, or the name of what makes it illegal: the decoder, then the dispatch (R92, R93). -/
def decode (w : Word) : Except Illegal Instr := dispatch (extract w)

/-- R-Type: `w = opcode*2^26 + rs*2^21 + rt*2^16 + rd*2^11 + shamt*2^6 + funct` (R61, R77). -/
def rWord (opcode : BitVec 6) (rs rt rd shamt : BitVec 5) (funct : BitVec 6) : Word :=
  BitVec.ofNat 32 (opcode.toNat * 2 ^ 26 + rs.toNat * 2 ^ 21 + rt.toNat * 2 ^ 16 + rd.toNat * 2 ^ 11 +
    shamt.toNat * 2 ^ 6 + funct.toNat)

/-- I-Type: `w = opcode*2^26 + rs*2^21 + rt*2^16 + imm` (R62, R77). -/
def iWord (opcode : BitVec 6) (rs rt : BitVec 5) (imm : BitVec 16) : Word :=
  BitVec.ofNat 32 (opcode.toNat * 2 ^ 26 + rs.toNat * 2 ^ 21 + rt.toNat * 2 ^ 16 + imm.toNat)

/-- J-Type: `w = opcode*2^26 + addr26` (R63, R77). -/
def jWord (opcode : BitVec 6) (addr26 : BitVec 26) : Word :=
  BitVec.ofNat 32 (opcode.toNat * 2 ^ 26 + addr26.toNat)

/-- The word of an instruction (R69, R70, R77). -/
def encode : Instr → Word
  | .sll rd rt shamt rs => rWord 0 rs (regBits rt) (regBits rd) shamt 0
  | .srl rd rt shamt rs => rWord 0 rs (regBits rt) (regBits rd) shamt 2
  | .add rd rs rt shamt => rWord 0 (regBits rs) (regBits rt) (regBits rd) shamt 32
  | .sub rd rs rt shamt => rWord 0 (regBits rs) (regBits rt) (regBits rd) shamt 34
  | .and rd rs rt shamt => rWord 0 (regBits rs) (regBits rt) (regBits rd) shamt 36
  | .or rd rs rt shamt  => rWord 0 (regBits rs) (regBits rt) (regBits rd) shamt 37
  | .j addr26           => jWord 2 addr26
  | .beq rs rt imm      => iWord 4 (regBits rs) (regBits rt) imm
  | .lw rt rs imm       => iWord 35 (regBits rs) (regBits rt) imm
  | .sw rt rs imm       => iWord 43 (regBits rs) (regBits rt) imm

/-- The format tag of an operation (R66). -/
def Op.format : Op → Format
  | .sll | .srl | .add | .sub | .and | .or => .rType
  | .lw | .sw | .beq => .iType
  | .j => .jType

/-- The mnemonic of an operation (R2, R153). -/
def Op.mnemonic : Op → String
  | .sll => "sll"
  | .srl => "srl"
  | .add => "add"
  | .sub => "sub"
  | .and => "and"
  | .or  => "or"
  | .j   => "j"
  | .beq => "beq"
  | .lw  => "lw"
  | .sw  => "sw"

/-- The mask column of R71. -/
def Op.mask : Op → Word
  | .sll | .srl | .add | .sub | .and | .or => 0xFC00003F
  | .j | .beq | .lw | .sw => 0xFC000000

/-- The match column of R71. -/
def Op.pattern : Op → Word
  | .sll => 0x00000000
  | .srl => 0x00000002
  | .add => 0x00000020
  | .sub => 0x00000022
  | .and => 0x00000024
  | .or  => 0x00000025
  | .j   => 0x08000000
  | .beq => 0x10000000
  | .lw  => 0x8C000000
  | .sw  => 0xAC000000

/-- "A word `w` is the instruction when `(w & mask) = match`" (R71). -/
def Op.matchesWord (o : Op) (w : Word) : Bool := w &&& o.mask == o.pattern

/-- The instruction the decoder reads from a word given as a number, numbered as the opcode table numbers its
bits (bit 0 the least significant, R7); every instruction is one 32-bit word (R60), so a bit above the
`nbits` the table gives is 0. -/
def decodeTableWord (nbits w : Nat) : Option Instr :=
  match decode (BitVec.ofNat 32 (w % 2 ^ nbits)) with
  | .ok i    => some i
  | .error _ => none

end Sys2Proof
end

