-- ==== Sys2Proof/Machine/State.lean ====
section
/-! DEFINITION. The whole state of the machine as plain data (10_state.md; INVENTORY.md, State), the reasons a
step could stop, and the state right after reset. -/

namespace Sys2Proof.Machine

/-- The two conditions that stop the machine, each with the value it presents (R25, R173, R175, R176). -/
inductive FaultCause where
  /-- `lw` or `sw` computed this word index, outside 0..255 (R173). -/
  | invalidAddress (idx : Int)
  /-- A fetch found this negative pc (R175). -/
  | invalidPC (pc : Int)
deriving DecidableEq, Repr

/-- `run_state` (R25). The last three are terminal; `faulted` carries the cause and its value. -/
inductive RunState where
  | running
  | halted
  | userQuit
  | faulted (cause : FaultCause)
deriving DecidableEq, Repr

/-- What the host answers at a single-step pause: `cont` ("empty input = continue"), `quit` ("the literal
character `q`"), or anything else, which is "re-prompt (not a fatal error)" (R160). -/
inductive HostAnswer where
  | cont
  | quit
  | other
deriving DecidableEq, Repr

/-- The two mappings of a trace record (R153): each key once, in rising order, with the value after the
instruction (R154). -/
structure TraceMaps where
  regs : List (Reg × Word)
  mem  : List (Nat × Word)
deriving DecidableEq, Repr

/-- A trace record (R153); `maps` is absent in the reduced record of `j` (R155). -/
structure TraceRecord where
  word   : Word
  format : Format
  name   : Op
  maps   : Option TraceMaps
deriving DecidableEq, Repr

/-- What `illegal_strobe` presents during a step: the word and its slot (R161, R171). -/
structure IllegalReport where
  word : Word
  slot : Int
deriving DecidableEq, Repr

/-- The data memory (R29, R40): the cells, by word index, that do not hold what an unlisted cell reads as.
Its one canonical form is `Memory.wf` (Machine/Ops.lean). -/
abbrev Memory := List (Nat × Word)

/-- The whole architectural state (R20 to R29), with the launch parameters that a run never changes (`prog`,
`mode`), the single-step pause and the host's answers (R159, R160), and what the last step presents on the
trace port and the illegal strobe (R33, R153, R161). -/
structure State where
  x             : Vector Word 32
  mem           : Memory
  pc            : Int
  runState      : RunState
  prog          : List Word
  mode          : Config.Mode
  paused        : Bool
  answers       : List HostAnswer
  trace         : Option TraceRecord
  illegalStrobe : Option IllegalReport
deriving DecidableEq, Repr

/-- The reasons a step could end without a next state. There is none: each of the three conditions of R170 has
the effect the spec gives it, and the machine then is in a state of its own (`Faulted`, R173, R175, or the
next slot, R171). No constructor, so no step ends in a fault: safe. -/
inductive Fault where
deriving DecidableEq, Repr

/-- The reasons the model has no meaning to give. -/
inductive Refusal where
  /-- An instruction without a meaning in the model; raised by no arm of `exec`: every instruction has one. Safe. -/
  | notModelled (mnemonic : String)
  /-- A launch whose images or program exceed R6 (a program over 2^30 words is refused, 93_implementation_defined.md
  row 7, D2); raised by `State.launch` alone, never by a step. Safe. -/
  | launchDoesNotFit
deriving DecidableEq, Repr

/-- The machine right after reset: a launch with every parameter at its default (R30, R31, R33, R190, R191).
Every register and cell is zero (R31), `pc` is 0 and `run_state` is Running (R30), no fault is recorded and
the ports are idle (R33). DESIGN CHOICE (log 6): `MODE` is `Run_All` and the program store is empty.
DESIGN CHOICE (log 7): no answer of the host is waiting. -/
def State.reset : State where
  x             := Vector.replicate 32 0
  mem           := []
  pc            := 0
  runState      := .running
  prog          := []
  mode          := .runAll
  paused        := false
  answers       := []
  trace         := none
  illegalStrobe := none

end Sys2Proof.Machine
end

