-- ==== Sys2Proof/Machine/Operands.lean ====
section
/-! DEFINITION. How each operand is formed from its field (R67; 30_encoding.md), and the address calculator
(R130; 43_load_store.md). All of it is over the integers, with no wrap (R8, R43). -/

namespace Sys2Proof.Machine

/-- `sext_16` of R9: "values with bit 15 set are interpreted as `imm − 65536`". -/
def sext16 (imm : BitVec 16) : Int :=
  if imm.toNat < 32768 then (imm.toNat : Int) else (imm.toNat : Int) - 65536

/-- `zext_16` of R9: the 16 bits as an unsigned number. -/
def zext16 (imm : BitVec 16) : Int := (imm.toNat : Int)

/-- The branch offset `sext_16(imm) * 4` (R67). -/
def branchOffset (imm : BitVec 16) : Int := sext16 imm * 4

/-- The jump amount `addr26 * 4`, unsigned, no upper pc bits merged in (R67). -/
def jumpAmount (addr26 : BitVec 26) : Int := (addr26.toNat : Int) * 4

/-- The byte address `ea = x[rs] + zext_16(imm)`: signed base, unsigned displacement, an exact integer (R43, R130,
R131; the displacement is not sign-extended: the spec's decision D14). -/
def effectiveAddress (base : Word) (imm : BitVec 16) : Int := base.toInt + zext16 imm

/-- The word index `idx = floor(ea / 4)` (R40; floor is the spec's decision D4). -/
def cellIndex (ea : Int) : Int := ea.fdiv 4

end Sys2Proof.Machine
end

