-- ==== Sys2Proof/Machine/Flags.lean ====
section
/-! DEFINITION. The hardware has no flags (R26): no instruction records carry, overflow, zero or sign. What it
has are two conditions computed inside a step and kept nowhere (R151): the comparison `beq` makes and the
range check of the data memory. -/

namespace Sys2Proof.Machine

/-- `eq` of R151: equality of the two 32-bit values, all 32 bits (R142). -/
def eqSignal (rsVal rtVal : Word) : Bool := rsVal == rtVal

/-- `addr_ok` of R151: the whole of the index lies in 0..255 (R41, R42, R43). -/
def addrOk (idx : Int) : Bool := decide (0 ≤ idx) && decide (idx < (Config.memWords : Int))

end Sys2Proof.Machine
end

