-- ==== Sys2Proof/Machine/Ops.lean ====
section
/-! DEFINITION. The operations every meaning is made of: registers (R20 to R22), data memory (R40 to R42), the
directives and the pc update (R94, R95), the trace record (R153 to R155), completing an instruction (R96),
and taking one of the three conditions (R170 to R177). There is no return from a condition (R179). -/

namespace Sys2Proof.Machine

/-! ## Registers -/

/-- `x[i]`: no register is hard-wired, register 0 included (R20, R21). -/
def State.reg (s : State) (r : Reg) : Word := s.x[r.val]

/-- `x[i] <- v`; a write to register 0 is kept like any other (R21). -/
def State.setReg (s : State) (r : Reg) (v : Word) : State := { s with x := s.x.set r.val v }

/-! ## Data memory -/

/-- What a cell that is not listed reads as: the default of `MEM_INIT`, zero (R31). -/
def Memory.unlisted : Word := 0

/-- `Mem[i]` (R9, R29). -/
def Memory.read : Memory → Nat → Word
  | [], _ => Memory.unlisted
  | (k, v) :: m, i => if k = i then v else Memory.read m i

/-- `Mem[i] <- v`: all 32 bits of the cell replaced, no other cell changed (R42), the canonical form kept. -/
def Memory.write : Memory → Nat → Word → Memory
  | [], i, v => if v = Memory.unlisted then [] else [(i, v)]
  | (k, u) :: m, i, v =>
    if i < k then if v = Memory.unlisted then (k, u) :: m else (i, v) :: (k, u) :: m
    else if i = k then if v = Memory.unlisted then m else (i, v) :: m
    else (k, u) :: Memory.write m i v

/-- The entries from `lo` on: indices strictly rising, inside the 256 cells, none with the unlisted value. -/
def Memory.wfFrom : Nat → Memory → Bool
  | _, [] => true
  | lo, (k, v) :: m =>
    decide (lo ≤ k) && decide (k < Config.memWords) && decide (v ≠ Memory.unlisted) && Memory.wfFrom (k + 1) m

/-- The one canonical form of a data memory: equal memories are equal lists. -/
def Memory.wf (m : Memory) : Bool := Memory.wfFrom 0 m

/-- `MemRead(ea, 4)` (R41): the cell's value, or the index outside 0..255 with which InvalidAddress is raised. -/
def memRead (m : Memory) (ea : Int) : Except Int Word :=
  if addrOk (cellIndex ea) then .ok (m.read (cellIndex ea).toNat) else .error (cellIndex ea)

/-- `MemWrite(ea, 4, v)` (R42): the memory written, or the index with which InvalidAddress is raised. -/
def memWrite (m : Memory) (ea : Int) (v : Word) : Except Int Memory :=
  if addrOk (cellIndex ea) then .ok (m.write (cellIndex ea).toNat v) else .error (cellIndex ea)

/-! ## Directives and the pc -/

/-- "a ControlDirective ∈ {Sequential, AbsoluteJump(a), RelativeBranch(o), None(no branch taken)}" (R94).
`noBranch` is the source's `None`, an alias of `sequential` that no meaning returns (90_conflicts.md C1). -/
inductive Directive where
  | sequential
  | absoluteJump (a : Int)
  | relativeBranch (o : Int)
  | noBranch
deriving DecidableEq, Repr

/-- The pc update policy (R95): a jump adds to the index-valued pc too, and a taken transfer adds no extra 1. -/
def pcAfter : Directive → Int → Int
  | .sequential, pc => pc + 1
  | .noBranch, pc => pc + 1
  | .absoluteJump a, pc => pc + a
  | .relativeBranch o, pc => pc + o

/-! ## The trace record -/

/-- A register index put into a rising list of distinct indices. -/
def insertKey (k : Reg) : List Reg → List Reg
  | [] => [k]
  | a :: l => if k < a then k :: a :: l else if k = a then a :: l else a :: insertKey k l

/-- The distinct indices of a list, rising: "a map has one entry per distinct index" (R154). -/
def keySet (ks : List Reg) : List Reg := ks.foldr insertKey []

/-- The registers an instruction reads or writes, which are the keys of its register map (R22, R154); `j` has no
map at all (R155). -/
def traceKeys : Instr → Option (List Reg)
  | .sll rd rt _ _ => some [rt, rd]
  | .srl rd rt _ _ => some [rt, rd]
  | .add rd rs rt _ => some [rs, rt, rd]
  | .sub rd rs rt _ => some [rs, rt, rd]
  | .and rd rs rt _ => some [rs, rt, rd]
  | .or rd rs rt _ => some [rs, rt, rd]
  | .j _ => none
  | .beq rs rt _ => some [rs, rt]
  | .lw rt rs _ => some [rs, rt]
  | .sw rt rs _ => some [rs, rt]

/-- The record of an instruction (R153), from the state after its write: each key with the value it then has
(R154; the spec's decision D11). `cell` is the data-memory cell it reached, if any. -/
def traceRecord (i : Instr) (cell : Option Nat) (s : State) : TraceRecord where
  word   := encode i
  format := i.op.format
  name   := i.op
  maps   := (traceKeys i).map fun ks =>
    { regs := (keySet ks).map fun r => (r, s.reg r)
      mem  := cell.toList.map fun c => (c, s.mem.read c) }

/-- The end of an instruction that completes (R96 points 5 and 6): the pc moves by the directive, the record is
on the trace port, the strobe is idle. `s` is the state after the instruction's one write. -/
def complete (i : Instr) (cell : Option Nat) (d : Directive) (s : State) : State :=
  { s with pc := pcAfter d s.pc, trace := some (traceRecord i cell s), illegalStrobe := none }

/-! ## Taking a condition -/

/-- The three synchronous conditions with the value each presents (R170, R176). -/
inductive Condition where
  | illegalInstruction (w : Word)
  | invalidAddress (idx : Int)
  | invalidPC (pc : Int)
deriving DecidableEq, Repr

/-- Taking a condition; none saves state or enters a handler (R178). IllegalInstruction strobes and moves on to the
next slot (R171); the other two stop the machine with everything else as it was (R173, R175). No record
(R156). -/
def takeCondition : Condition → State → State
  | .illegalInstruction w, s =>
    { s with pc := s.pc + 1, trace := none, illegalStrobe := some ⟨w, s.pc⟩ }
  | .invalidAddress idx, s =>
    { s with runState := .faulted (.invalidAddress idx), trace := none, illegalStrobe := none }
  | .invalidPC pc, s =>
    { s with runState := .faulted (.invalidPC pc), trace := none, illegalStrobe := none }

end Sys2Proof.Machine
end

