-- ==== Sys2Proof/Machine/Control.lean ====
section
/-! DEFINITION. `j`, `beq` (44_control_transfer.md). Neither writes a register or a cell, there is no delay slot, and
the amounts, scaled by 4, are added to the index-valued pc as they stand (R140). -/

namespace Sys2Proof.Machine

/-- `j n` (R141). -/
def execJ (addr26 : BitVec 26) (s : State) : Host.Outcome State Fault Refusal :=
  .next (complete (.j addr26) none (.absoluteJump (jumpAmount addr26)) s)

/-- The directive of `beq` (R94, R142). -/
def branchDirective (rsVal rtVal : Word) (imm : BitVec 16) : Directive :=
  if eqSignal rsVal rtVal then .relativeBranch (branchOffset imm) else .sequential

/-- `beq rs, rt, k` (R142). -/
def execBeq (rs rt : Reg) (imm : BitVec 16) (s : State) : Host.Outcome State Fault Refusal :=
  .next (complete (.beq rs rt imm) none (branchDirective (s.reg rs) (s.reg rt) imm) s)

end Sys2Proof.Machine
end

