-- ==== Sys2Proof/Machine/LoadStore.lean ====
section
/-! DEFINITION. `lw`, `sw` (43_load_store.md). The range check comes before the write, so a faulting access has
written nothing (R96, R173). -/

namespace Sys2Proof.Machine

/-- The byte address of `imm(rs)` in a state (R130). -/
def State.ea (s : State) (rs : Reg) (imm : BitVec 16) : Int := effectiveAddress (s.reg rs) imm

/-- The cell of `imm(rs)` when its index is in range (R130). -/
def State.cell (s : State) (rs : Reg) (imm : BitVec 16) : Nat := (cellIndex (s.ea rs imm)).toNat

/-- `lw rt, imm(rs)` (R132). -/
def execLw (rt rs : Reg) (imm : BitVec 16) (s : State) : Host.Outcome State Fault Refusal :=
  match memRead s.mem (s.ea rs imm) with
  | .ok v      => .next (complete (.lw rt rs imm) (some (s.cell rs imm)) .sequential (s.setReg rt v))
  | .error idx => .next (takeCondition (.invalidAddress idx) s)

/-- `sw rt, imm(rs)` (R133). -/
def execSw (rt rs : Reg) (imm : BitVec 16) (s : State) : Host.Outcome State Fault Refusal :=
  match memWrite s.mem (s.ea rs imm) (s.reg rt) with
  | .ok m      => .next (complete (.sw rt rs imm) (some (s.cell rs imm)) .sequential { s with mem := m })
  | .error idx => .next (takeCondition (.invalidAddress idx) s)

end Sys2Proof.Machine
end

