-- ==== Sys2Proof/Machine/Alu.lean ====
section
/-! DEFINITION. `add`, `sub`, `and`, `or` (41_alu_rtype.md). -/

namespace Sys2Proof.Machine

/-- The sum over the integers, brought into 32 bits by discarding the carry (R111, R116; the spec's decision D3). -/
def aluAdd (a b : Word) : Word := BitVec.ofInt 32 (a.toInt + b.toInt)

/-- The difference, `x[rs]` the minuend (R112, R116; the spec's decision D3). -/
def aluSub (a b : Word) : Word := BitVec.ofInt 32 (a.toInt - b.toInt)

/-- Bitwise and of the patterns (R113). -/
def aluAnd (a b : Word) : Word := a &&& b

/-- Bitwise or of the patterns (R114). -/
def aluOr (a b : Word) : Word := a ||| b

/-- What the register instructions share: the result into `x[rd]`, no memory, `Sequential` (R110, R120). -/
def writeResult (i : Instr) (rd : Reg) (v : Word) (s : State) : State :=
  complete i none .sequential (s.setReg rd v)

/-- `add rd, rs, rt` (R111). -/
def execAdd (rd rs rt : Reg) (shamtIgn : BitVec 5) (s : State) : Host.Outcome State Fault Refusal :=
  .next (writeResult (.add rd rs rt shamtIgn) rd (aluAdd (s.reg rs) (s.reg rt)) s)

/-- `sub rd, rs, rt` (R112). -/
def execSub (rd rs rt : Reg) (shamtIgn : BitVec 5) (s : State) : Host.Outcome State Fault Refusal :=
  .next (writeResult (.sub rd rs rt shamtIgn) rd (aluSub (s.reg rs) (s.reg rt)) s)

/-- `and rd, rs, rt` (R113). -/
def execAnd (rd rs rt : Reg) (shamtIgn : BitVec 5) (s : State) : Host.Outcome State Fault Refusal :=
  .next (writeResult (.and rd rs rt shamtIgn) rd (aluAnd (s.reg rs) (s.reg rt)) s)

/-- `or rd, rs, rt` (R114). -/
def execOr (rd rs rt : Reg) (shamtIgn : BitVec 5) (s : State) : Host.Outcome State Fault Refusal :=
  .next (writeResult (.or rd rs rt shamtIgn) rd (aluOr (s.reg rs) (s.reg rt)) s)

end Sys2Proof.Machine
end

