-- ==== Sys2Proof/Machine/Shift.lean ====
section
/-! DEFINITION. `sll`, `srl` (42_shift.md). The distance is the 5-bit field, so it never reaches the width
(R123). -/

namespace Sys2Proof.Machine

/-- `(u32(v) * 2^shamt) mod 2^32` (R121; the bits beyond bit 31 are discarded: the spec's decision D16). -/
def shiftLeft (v : Word) (shamt : BitVec 5) : Word := BitVec.ofNat 32 (v.toNat * 2 ^ shamt.toNat)

/-- `floor(u32(v) / 2^shamt)`, the logical shift of the pattern (R122). -/
def shiftRight (v : Word) (shamt : BitVec 5) : Word := BitVec.ofNat 32 (v.toNat / 2 ^ shamt.toNat)

/-- `sll rd, rt, shamt` (R121). -/
def execSll (rd rt : Reg) (shamt rsIgn : BitVec 5) (s : State) : Host.Outcome State Fault Refusal :=
  .next (writeResult (.sll rd rt shamt rsIgn) rd (shiftLeft (s.reg rt) shamt) s)

/-- `srl rd, rt, shamt` (R122). -/
def execSrl (rd rt : Reg) (shamt rsIgn : BitVec 5) (s : State) : Host.Outcome State Fault Refusal :=
  .next (writeResult (.srl rd rt shamt rsIgn) rd (shiftRight (s.reg rt) shamt) s)

end Sys2Proof.Machine
end

