-- ==== Sys2Proof/Machine/Dispatch.lean ====
section
/-! DEFINITION. The executor's dispatch (R93): one arm per instruction. -/

namespace Sys2Proof.Machine

def exec (i : Instr) (s : State) : Host.Outcome State Fault Refusal :=
  match i with
  | .sll rd rt shamt rsIgn => Sys2Proof.Machine.execSll rd rt shamt rsIgn s
  | .srl rd rt shamt rsIgn => Sys2Proof.Machine.execSrl rd rt shamt rsIgn s
  | .add rd rs rt shamtIgn => Sys2Proof.Machine.execAdd rd rs rt shamtIgn s
  | .sub rd rs rt shamtIgn => Sys2Proof.Machine.execSub rd rs rt shamtIgn s
  | .and rd rs rt shamtIgn => Sys2Proof.Machine.execAnd rd rs rt shamtIgn s
  | .or rd rs rt shamtIgn => Sys2Proof.Machine.execOr rd rs rt shamtIgn s
  | .j addr26 => Sys2Proof.Machine.execJ addr26 s
  | .beq rs rt imm => Sys2Proof.Machine.execBeq rs rt imm s
  | .lw rt rs imm => Sys2Proof.Machine.execLw rt rs imm s
  | .sw rt rs imm => Sys2Proof.Machine.execSw rt rs imm s

end Sys2Proof.Machine
end

