-- ==== Sys2Proof/Machine/Driver.lean ====
section
/-! DEFINITION. The control-flow driver: fetch (R91), illegal words (R171), the single-step pause (R159, R160), the
launch (R31, R190), and what the host sees (R162). The step that strings them together is Machine/Step.lean. -/

namespace Sys2Proof.Machine

/-! ## Fetch -/

/-- What a fetch finds (R91). -/
inductive Fetched where
  /-- `pc >= PROG_LEN`: the program is exhausted. -/
  | pastEnd
  /-- `pc < 0`. -/
  | negative
  /-- The word `Prog[pc]`. -/
  | word (w : Word)
deriving DecidableEq, Repr

/-- The fetch, its tests in the order of R91. It reads the program store only (R29, R53). -/
def fetch (prog : List Word) (pc : Int) : Fetched :=
  if (prog.length : Int) ≤ pc then .pastEnd
  else if pc < 0 then .negative
  else
    match prog[pc.toNat]? with
    | some w => .word w
    | none   => .pastEnd

/-- The end of a run at a fetch past the program: `run_state <- Halted`, nothing else changes (R91); no record (R156). -/
def State.halt (s : State) : State := { s with runState := .halted, trace := none, illegalStrobe := none }

/-! ## The single-step pause -/

/-- The core is suspended between two steps. `cont` and `quit` are not looked at in `Run_All` mode (R159, R160). -/
def State.awaitsHost (s : State) : Bool := decide (s.mode = .singleStep) && s.paused

/-- The pause after a whole step that leaves the machine Running, an illegal word's step included (R97, R159; the
spec's decision D17). -/
def State.pauseIfStepping (s : State) : State :=
  if s.mode = .singleStep ∧ s.runState = .running then { s with paused := true } else s

/-- The pause after a step's outcome. -/
def thenPause : Host.Outcome State Fault Refusal → Host.Outcome State Fault Refusal
  | .next s    => .next s.pauseIfStepping
  | .fault r   => .fault r
  | .refused r => .refused r

/-- The host's next answer at a pause (R160). Continue ends the pause; quit ends the run with no further trace;
any other answer leaves the core paused; with no answer the core waits, all state kept (R159, R197). -/
def State.answerPause (s : State) : State :=
  match s.answers with
  | [] => s
  | .cont :: rest =>
    { s with paused := false, answers := rest, trace := none, illegalStrobe := none }
  | .quit :: rest =>
    { s with runState := .userQuit, paused := false, answers := rest, trace := none, illegalStrobe := none }
  | .other :: rest => { s with answers := rest }

/-- The host's side: one more answer handed in, behind those not yet looked at (R160). -/
def State.offerAnswer (s : State) (a : HostAnswer) : State := { s with answers := s.answers ++ [a] }

/-! ## Launch -/

/-- The register file of `REG_INIT`: line `i` initialises register `i`, a missing line leaves zero (R31). -/
def launchRegs (regInit : List Word) : Vector Word 32 := Vector.ofFn fun i => regInit.getD i.val 0

/-- The data memory of `MEM_INIT`, from cell `i` on: line by line, a missing line leaves zero (R31). -/
def launchMemFrom : Nat → List Word → Memory
  | _, [] => []
  | i, v :: vs => (launchMemFrom (i + 1) vs).write i v

/-- The state a launch leaves: the stores hold the loader's images, `pc` is 0, `run_state` is Running, no fault is
recorded and the ports are idle (R30, R31, R33, R190). -/
def State.launched (l : Config.Launch) : State :=
  { State.reset with
    x := launchRegs l.regInit, mem := launchMemFrom 0 l.memInit, prog := l.prog, mode := l.mode }

/-- A launch, which the spec treats as reset (R190). A launch whose images do not fit is refused (R6; D2). -/
def State.launch (l : Config.Launch) : Host.Outcome State Fault Refusal :=
  if l.wf then .next (State.launched l) else .refused .launchDoesNotFit

/-- A word stored where the next step fetches, for `State.withFetchWord`: at the slot of the pc if that is a slot
(else at slot 0, which the pc then names), the slots before it kept and filled up with zero words, the
machine Running and not paused, so that the very next step fetches the word (log 6). -/
def State.placeWord (s : State) (w : Word) : State :=
  let pc : Int := if 0 ≤ s.pc ∧ s.pc < (Config.progMax : Int) then s.pc else 0
  { s with
    pc := pc
    prog := (s.prog ++ List.replicate (pc.toNat + 1 - s.prog.length) 0).set pc.toNat w
    runState := .running
    paused := false }

/-! ## What the host sees -/

/-- `fault_cause` and `fault_value`, when Faulted (R151, R162). -/
def State.faultCause (s : State) : Option FaultCause :=
  match s.runState with
  | .faulted c => some c
  | _ => none

/-- `fault_value` (R151): the offending index (R173) or the negative pc (R175). -/
def State.faultValue (s : State) : Option Int :=
  match s.faultCause with
  | some (.invalidAddress idx) => some idx
  | some (.invalidPC pc) => some pc
  | none => none

/-- All 32 registers and all 256 cells, in index order. -/
def State.dump (s : State) : List Word × List Word :=
  (s.x.toList, (List.range Config.memWords).map s.mem.read)

/-- Read-back: only after Halted (R162; nothing is defined after UserQuit, D13, and Faulted is no normal end, R173). -/
def State.readBack (s : State) : Option (List Word × List Word) :=
  if s.runState = .halted then some s.dump else none

/-- The final report of a run: in `Run_All` mode only (R99, R162). -/
def State.finalReport (s : State) : Option (List Word × List Word) :=
  if s.mode = .runAll then s.readBack else none

end Sys2Proof.Machine
end

