-- ==== Sys2Proof/Machine/Step.lean ====
section
/-! DEFINITION. One step (R98), with the single-step pause between steps as a step of its own (R97, R159). -/

namespace Sys2Proof.Machine

/-- One program slot (R10, R98): fetch, decode, execute, pause. -/
def stepSlot (s : State) : Host.Outcome State Fault Refusal :=
  match fetch s.prog s.pc with
  | .pastEnd  => .next s.halt
  | .negative => .next (takeCondition (.invalidPC s.pc) s)
  | .word w   =>
    match decode w with
    | .ok i    => thenPause (exec i s)
    | .error _ => thenPause (.next (takeCondition (.illegalInstruction w) s))

/-- One step. Only in Running does anything change; in the three terminal states nothing changes any more (R25). A
core paused by single-step mode takes the host's next answer instead of a slot (R159, R160). -/
def step (s : State) : Host.Outcome State Fault Refusal :=
  match s.runState with
  | .running   => if s.awaitsHost then .next s.answerPause else stepSlot s
  | .halted    => .next s
  | .userQuit  => .next s
  | .faulted _ => .next s

/-- The state with one instruction word stored where `step` fetches its next instruction: the word of `w`'s low
`nbits` bits, the bits above them zero (R60: every instruction is one 32-bit word). -/
def State.withFetchWord (s : State) (nbits w : Nat) : State :=
  s.placeWord (BitVec.ofNat 32 (w % 2 ^ nbits))

end Sys2Proof.Machine
end

