-- ==== Sys2Proof/Machine/Blocks.lean ====
section
/-! DEFINITION. The core as hardware blocks (R150 to R152; 45_ports_trace_host.md): the signals one pass of a word
through the blocks has, each at the width R151 gives it. The step does not use them; that they compute what
the step does is an obligation. `x`, `mem`, `pc` are the state at the start of the step, `f` the decoder's
outputs. No signal carries a value from one step to the next (R150). Where R151 gives a signal no
value for some words, the docstring says which value stands here: DESIGN CHOICE (log 13), safe, since nothing of the
next state takes that value. -/

namespace Sys2Proof.Machine.Blocks

/-- Dispatch: the ten one-hot selects (R69, R70, R151). -/
def isOp (f : Fields) : Op → Bool
  | .sll => f.opcode == 0 && f.funct == 0
  | .srl => f.opcode == 0 && f.funct == 2
  | .add => f.opcode == 0 && f.funct == 32
  | .sub => f.opcode == 0 && f.funct == 34
  | .and => f.opcode == 0 && f.funct == 36
  | .or  => f.opcode == 0 && f.funct == 37
  | .j   => f.opcode == 2
  | .beq => f.opcode == 4
  | .lw  => f.opcode == 35
  | .sw  => f.opcode == 43

/-- The ten operations in the order of R151. -/
def allOps : List Op := [.add, .sub, .and, .or, .sll, .srl, .lw, .sw, .j, .beq]

/-- `illegal`: none of the ten (R151). -/
def illegal (f : Fields) : Bool := allOps.all fun o => !isOp f o

/-- `fmt` in {R-Type, I-Type, J-Type, none} (R66, R151). -/
def fmt (f : Fields) : Option Format := (allOps.find? (isOp f)).map Op.format

/-- One of the six R-type selects. -/
def isRType (f : Fields) : Bool :=
  isOp f .add || isOp f .sub || isOp f .and || isOp f .or || isOp f .sll || isOp f .srl

/-- Register file, first read port: `rs_val = x[rs]`. -/
def rsVal (x : Vector Word 32) (f : Fields) : Word := x[(regOf f.rs).val]

/-- Register file, second read port: `rt_val = x[rt]`. -/
def rtVal (x : Vector Word 32) (f : Fields) : Word := x[(regOf f.rt).val]

/-- ALU and shift unit: `alu_out`, from `rs_val`, `rt_val`, `shamt` and the six selects. DESIGN CHOICE (log 13): with
none of the six selects, R151 gives no value; here it is the last choice, `rt_val >> shamt`. -/
def aluOut (x : Vector Word 32) (f : Fields) : Word :=
  if isOp f .add then rsVal x f + rtVal x f
  else if isOp f .sub then rsVal x f - rtVal x f
  else if isOp f .and then rsVal x f &&& rtVal x f
  else if isOp f .or then rsVal x f ||| rtVal x f
  else if isOp f .sll then rtVal x f <<< f.shamt.toNat
  else rtVal x f >>> f.shamt.toNat

/-- ALU: `eq`, for `beq`. DESIGN CHOICE (log 13): R151 gives it for `beq`; here every word has it. -/
def eq (x : Vector Word 32) (f : Fields) : Bool := rsVal x f == rtVal x f

/-- Address calculator: `ea[32:0]`, 33 bits two's complement. -/
def ea (x : Vector Word 32) (f : Fields) : BitVec 33 := (rsVal x f).signExtend 33 + f.imm.setWidth 33

/-- Address calculator: `idx = ea >> 2`, arithmetic, 31 bits signed. -/
def idx (x : Vector Word 32) (f : Fields) : BitVec 31 := ((ea x f).sshiftRight 2).setWidth 31

/-- Address calculator: `addr_ok = (0 <= idx <= 255)`. -/
def addrOk (x : Vector Word 32) (f : Fields) : Bool :=
  decide (0 ≤ (idx x f).toInt) && decide ((idx x f).toInt ≤ 255)

/-- Data-memory interface: `mem_idx[7:0]`, the low 8 bits of `idx` when `addr_ok`. DESIGN CHOICE (log 13): R151 gives no
value without `addr_ok`; here it is the low 8 bits of `idx` then too. -/
def memIdx (x : Vector Word 32) (f : Fields) : BitVec 8 := (idx x f).setWidth 8

/-- Data-memory interface: `mem_we = is_sw and addr_ok` (R152). -/
def memWe (x : Vector Word 32) (f : Fields) : Bool := isOp f .sw && addrOk x f

/-- Data-memory interface: `mem_rdata = Mem[mem_idx]`. DESIGN CHOICE (log 13): without `addr_ok`, where R151 gives no
`mem_idx`, it is the cell that `memIdx` then names. -/
def memRdata (x : Vector Word 32) (mem : Memory) (f : Fields) : Word := mem.read (memIdx x f).toNat

/-- Register file: `wen`, true exactly for the six R-type instructions and for `lw` with `addr_ok` (R152). -/
def wen (x : Vector Word 32) (f : Fields) : Bool := isRType f || (isOp f .lw && addrOk x f)

/-- Register file: `waddr`, `rd` for R-type and `rt` for `lw`. DESIGN CHOICE (log 13): for a word that writes no register
R151 gives no value; here it is `rt`. -/
def waddr (f : Fields) : Reg := if isRType f then regOf f.rd else regOf f.rt

/-- Register file: `wdata`, `alu_out` for R-type and `mem_rdata` for `lw` (R152). DESIGN CHOICE (log 13): for a word
that writes no register no value is given; here it is `mem_rdata`. -/
def wdata (x : Vector Word 32) (mem : Memory) (f : Fields) : Word :=
  if isRType f then aluOut x f else memRdata x mem f

/-- The step faults: `lw` or `sw` without `addr_ok` (R173). -/
def fault (x : Vector Word 32) (f : Fields) : Bool := (isOp f .lw || isOp f .sw) && !addrOk x f

/-- PC and branch-target logic on a 32-bit pc register (R24): `pc_next` (R95, R151), held on a fault. -/
def pcNext (x : Vector Word 32) (pc : BitVec 32) (f : Fields) : BitVec 32 :=
  if fault x f then pc
  else if isOp f .j then pc + f.addr26.setWidth 32 <<< 2
  else if isOp f .beq && eq x f then pc + f.imm.signExtend 32 <<< 2
  else pc + 1

/-- The register file after the step: the one write takes effect at its end. -/
def nextX (x : Vector Word 32) (mem : Memory) (f : Fields) : Vector Word 32 :=
  if wen x f then x.set (waddr f).val (wdata x mem f) else x

/-- The data memory after the step: `mem_wdata = rt_val`. -/
def nextMem (x : Vector Word 32) (mem : Memory) (f : Fields) : Memory :=
  if memWe x f then mem.write (memIdx x f).toNat (rtVal x f) else mem

end Sys2Proof.Machine.Blocks
end

