-- ==== Sys2Proof/Safety.lean ====
section
/-! DEFINITION. What claims about runs are made of: the invariant that every step keeps, the ways a run ends, and
what a run reaches. -/

namespace Sys2Proof.Machine

/-- The pc stays within -131072 .. 2^30 + 2^28 - 5 (R24; 90_conflicts.md C12). -/
abbrev State.PcInRange (s : State) : Prop := -131072 ≤ s.pc ∧ s.pc ≤ 2 ^ 30 + 2 ^ 28 - 5

/-- In `Faulted(InvalidAddress, idx)` the pc still names the `lw` or `sw` that computed `idx`, and `idx` is outside
0..255 (R173). -/
def State.faultingAccess (s : State) (idx : Int) : Bool :=
  match fetch s.prog s.pc with
  | .word w =>
    let f := extract w
    (f.opcode == 35 || f.opcode == 43) && !addrOk idx &&
      decide (cellIndex (effectiveAddress (s.reg (regOf f.rs)) f.imm) = idx)
  | _ => false

/-- What each run state says of the rest of the state: Halted only with `pc >= PROG_LEN` (R91, R99), UserQuit only
in `Single_Step` mode (R25), Faulted with the condition that caused it still visible (R173, R175). -/
def State.runStateFits (s : State) : Bool :=
  match s.runState with
  | .running => true
  | .halted => decide ((s.prog.length : Int) ≤ s.pc)
  | .userQuit => decide (s.mode = .singleStep)
  | .faulted (.invalidAddress idx) => s.faultingAccess idx
  | .faulted (.invalidPC pc) => decide (s.pc = pc) && decide (pc < 0)

/-- The invariant: the memory in its canonical form inside the 256 cells, a program within its bound (D2), the pc
within R24's range, the run state as `runStateFits` says, and a pause only in a running `Single_Step` run (R159). -/
structure State.Inv (s : State) : Prop where
  mem    : s.mem.wf = true
  prog   : s.prog.length ≤ Config.progMax
  pc     : s.PcInRange
  run    : s.runStateFits = true
  paused : s.paused = true → s.mode = .singleStep ∧ s.runState = .running

/-- The run has ended (R99). -/
def State.terminal (s : State) : Bool := decide (s.runState ≠ .running)

/-- The machine is between steps and its next step handles a program slot: Running and not paused (R91, R97). -/
abbrev State.Ready (s : State) : Prop := s.runState = .running ∧ s.awaitsHost = false

/-- The normal end, the only one a result may be claimed of (R99, R173, D13). -/
abbrev State.NormalEnd (s : State) : Prop := s.runState = .halted

/-- `t` is reached from `s` in some number of steps, each answering a next state. -/
def Reaches (s t : State) : Prop := ∃ k, Sys2Proof.core.run k s = .next t

end Sys2Proof.Machine
end

