-- ==== Sys2Proof/Certificates/Slice0/Obligations.lean ====
section
/-! DEFINITION. The statements for the provers. Each docstring names the rule it comes from; "D<n>" is a decision of
92_eei_decisions.md, which the spec marks as its own choice, and "log n" is notes/assumptions/n.md, a choice of the
model's; a clause that rests on either says so. -/

open Sys2Proof Sys2Proof.Machine

namespace Sys2Proof.Slice0

/-! ## Words the statements use -/

/-- The register map of a record (R153, R154): the distinct registers named, in rising order (log 9, the model's
choice), each with its value in `t`, the state after the instruction (D11). -/
def regMap (ks : List Reg) (t : State) : List (Reg × Word) := (keySet ks).map fun r => (r, t.reg r)

/-- `t` is what a register instruction `i` leaves of `s`: `x[rd]` and the pc are written, the record lists `ks`, and
everything else is as it was (R110, R120, R154). The record's values are those after the instruction (D11), its keys
in rising order (log 9). -/
def WritesOnlyResult (i : Instr) (ks : List Reg) (rd : Reg) (s t : State) : Prop :=
  t = { s with
    x := s.x.set rd.val (t.reg rd)
    pc := s.pc + 1
    trace := some { word := encode i, format := .rType, name := i.op, maps := some ⟨regMap ks t, []⟩ }
    illegalStrobe := none }

/-- The registers R22 says an instruction writes, by the field that names it. -/
def destination : Instr → Option Reg
  | .sll rd _ _ _ => some rd
  | .srl rd _ _ _ => some rd
  | .add rd _ _ _ => some rd
  | .sub rd _ _ _ => some rd
  | .and rd _ _ _ => some rd
  | .or rd _ _ _ => some rd
  | .lw rt _ _ => some rt
  | .sw .. => none
  | .beq .. => none
  | .j _ => none

/-- The keys of a record's register map, by the table of R154. -/
def touched : Instr → List Reg
  | .sll rd rt _ _ => [rt, rd]
  | .srl rd rt _ _ => [rt, rd]
  | .add rd rs rt _ => [rs, rt, rd]
  | .sub rd rs rt _ => [rs, rt, rd]
  | .and rd rs rt _ => [rs, rt, rd]
  | .or rd rs rt _ => [rs, rt, rd]
  | .lw rt rs _ => [rs, rt]
  | .sw rt rs _ => [rs, rt]
  | .beq rs rt _ => [rs, rt]
  | .j _ => []

/-- The keys of a record's memory map, by the table of R154: the cell `lw` and `sw` reach. -/
def touchedCells (s : State) : Instr → List Nat
  | .lw _ rs imm => [s.cell rs imm]
  | .sw _ rs imm => [s.cell rs imm]
  | _ => []

/-- The next step of `s` fetches `w` and `w` is the instruction `i`. -/
def Fetches (s : State) (w : Word) (i : Instr) : Prop :=
  s.Ready ∧ fetch s.prog s.pc = .word w ∧ decode w = .ok i

/-- Two states that differ at most in what the ports show. -/
def SameButPorts (s t : State) : Prop :=
  t.x = s.x ∧ t.mem = s.mem ∧ t.pc = s.pc ∧ t.runState = s.runState ∧ t.prog = s.prog ∧ t.mode = s.mode ∧
    t.paused = s.paused ∧ t.answers = s.answers

/-- What the program and its run see of a state: registers, memory, pc, run state and the ports. -/
def SameComputation (s t : State) : Prop :=
  t.x = s.x ∧ t.mem = s.mem ∧ t.pc = s.pc ∧ t.runState = s.runState ∧ t.trace = s.trace ∧
    t.illegalStrobe = s.illegalStrobe

end Sys2Proof.Slice0

open Sys2Proof.Slice0

/-! ## Encoding and decoding -/

/-- A few words written out from R69, R70 and R77 decode to what they stand for: scenarios A to D of the source, a
shift, an `sw`, a `j`, and the nearest illegal neighbours. -/
def Obligations.WrittenWordsDecode : Prop :=
  decode 0x00221820 = .ok (.add 3 1 2 0) ∧ decode 0x8C230010 = .ok (.lw 3 1 16) ∧
  decode 0x10220003 = .ok (.beq 1 2 3) ∧ decode 0xFC000000 = .error (.opcode 63) ∧
  decode 0x00E21900 = .ok (.sll 3 2 4 7) ∧ decode 0x00021FC2 = .ok (.srl 3 2 31 0) ∧
  decode 0xAC230010 = .ok (.sw 3 1 16) ∧ decode 0x0BFFFFFF = .ok (.j 67108863) ∧
  decode 0x0000000C = .error (.funct 12) ∧ decode 0x00000021 = .error (.funct 33)

/-- Decoding the word of an instruction gives the instruction back, for all ten and every operand value (R65, R77). -/
def Obligations.DecodeOfEncodeIsTheInstruction : Prop := ∀ i : Instr, decode (encode i) = .ok i

/-- The word of what a word decodes to is that word (R65, R77): no bit is dropped. That the ignored fields are kept too
is the model's choice (log 2): R71 calls words that differ only there the same instruction. -/
def Obligations.EncodeOfDecodeIsTheWord : Prop := ∀ (w : Word) (i : Instr), decode w = .ok i → encode i = w

/-- R65 and R7: the eight fields of any word, each the number its bits make, and how they overlap. -/
def Obligations.DecoderCutsTheEightFields : Prop :=
  ∀ w : Word,
    (extract w).opcode.toNat = w.toNat / 2 ^ 26 % 2 ^ 6 ∧ (extract w).rs.toNat = w.toNat / 2 ^ 21 % 2 ^ 5 ∧
    (extract w).rt.toNat = w.toNat / 2 ^ 16 % 2 ^ 5 ∧ (extract w).rd.toNat = w.toNat / 2 ^ 11 % 2 ^ 5 ∧
    (extract w).shamt.toNat = w.toNat / 2 ^ 6 % 2 ^ 5 ∧ (extract w).funct.toNat = w.toNat % 2 ^ 6 ∧
    (extract w).imm.toNat = w.toNat % 2 ^ 16 ∧ (extract w).addr26.toNat = w.toNat % 2 ^ 26 ∧
    (extract w).imm.toNat =
      (extract w).rd.toNat * 2048 + (extract w).shamt.toNat * 64 + (extract w).funct.toNat ∧
    (extract w).addr26.toNat =
      (extract w).rs.toNat * 2 ^ 21 + (extract w).rt.toNat * 2 ^ 16 + (extract w).imm.toNat

/-- R71: the mask and match of a row pick out exactly the words that decode to that row's instruction. -/
def Obligations.WordMatchesARowIffItIsThatInstruction : Prop :=
  ∀ (w : Word) (o : Op), w &&& o.mask = o.pattern ↔ ∃ i, decode w = .ok i ∧ i.op = o

/-- R69, R70, R72: a word is illegal exactly when its opcode is none of five, or is 0 with a funct that is none of
six. -/
def Obligations.IllegalWordsAreTheUnrecognisedOnes : Prop :=
  ∀ w : Word, (∃ e, decode w = .error e) ↔
    (w.toNat / 2 ^ 26 ∉ [0, 2, 4, 35, 43] ∨
      (w.toNat / 2 ^ 26 = 0 ∧ w.toNat % 2 ^ 6 ∉ [0, 2, 32, 34, 36, 37]))

/-- R71, R123: the field an instruction ignores changes nothing but the word its record shows: with that word set
alike, the two states are equal, record and strobe included. That the two are two terms is log 2. -/
def Obligations.IgnoredFieldsDoNotMatter : Prop :=
  ∀ (a b c : Reg) (sh p q : BitVec 5) (s : State),
    ∀ ij ∈ [(Instr.add a b c p, Instr.add a b c q), (.sub a b c p, .sub a b c q), (.and a b c p, .and a b c q),
        (.or a b c p, .or a b c q), (.sll a b sh p, .sll a b sh q), (.srl a b sh p, .srl a b sh q)],
      ∃ t u, exec ij.1 s = .next t ∧ exec ij.2 s = .next u ∧
        (∃ r, u.trace = some r ∧ r.word = encode ij.2) ∧
        u = { t with trace := t.trace.map fun r => { r with word := encode ij.2 } }

/-! ## Launch and reset -/

/-- R30: at launch the pc is 0 and the run state Running, in the reset state and after every launch, and the entry
point is slot 0. -/
def Obligations.LaunchStartsRunningAtSlotZero : Prop :=
  State.reset.pc = 0 ∧ State.reset.runState = .running ∧
  ∀ (l : Config.Launch) (s : State), State.launch l = .next s →
    s.pc = 0 ∧ s.runState = .running ∧ ∀ (w : Word) (ws : List Word), l.prog = w :: ws →
      fetch s.prog s.pc = .word w

/-- R31: every register and every cell holds its init line, or zero where there is none; after a launch and in the
reset state, whose images are empty. -/
def Obligations.LaunchFillsRegistersAndCells : Prop :=
  (∀ l : Config.Launch, l.regInit.length ≤ 32 → l.memInit.length ≤ 256 → l.prog.length ≤ 2 ^ 30 →
    ∃ s, State.launch l = .next s ∧
      (∀ r : Reg, s.reg r = (l.regInit[r.val]?).getD 0) ∧
      (∀ c : Nat, c < 256 → s.mem.read c = (l.memInit[c]?).getD 0)) ∧
  (∀ r : Reg, State.reset.reg r = 0) ∧ ∀ c : Nat, State.reset.mem.read c = 0

/-- R6, D2 (the spec's own choice; log 4): a launch is refused exactly when its images or its program do not fit. -/
def Obligations.LaunchRefusesExactlyWhatDoesNotFit : Prop :=
  ∀ l : Config.Launch, State.launch l = .refused .launchDoesNotFit ↔
    32 < l.regInit.length ∨ 256 < l.memInit.length ∨ 2 ^ 30 < l.prog.length

/-- R33, R190: a launch with every parameter at its default gives the reset state. That `MODE` defaults to `Run_All`
is the model's choice (log 6). -/
def Obligations.LaunchWithDefaultsIsReset : Prop := State.launch {} = .next State.reset

/-- The invariant holds at reset. -/
def Obligations.ResetMeetsTheInvariant : Prop := State.reset.Inv

/-- The invariant holds after every launch that is not refused. -/
def Obligations.EveryLaunchMeetsTheInvariant : Prop :=
  ∀ (l : Config.Launch) (s : State), State.launch l = .next s → s.Inv

/-! ## Register instructions -/

/-- R111, R115, R116: `add` writes the wrapped sum of the old source values, `rd` any register, `x[0]` included, and
nothing else. That the sum wraps is D3, that the record holds values after the instruction is D11, the spec's own
choices; that its keys are in rising order is the model's (log 9). -/
def Obligations.AddWritesTheWrappedSum : Prop :=
  ∀ (rd rs rt : Reg) (ig : BitVec 5) (s : State), ∃ t, exec (.add rd rs rt ig) s = .next t ∧
    t.reg rd = s.reg rs + s.reg rt ∧
    (t.reg rd).toInt = wrap32 ((s.reg rs).toInt + (s.reg rt).toInt) ∧
    WritesOnlyResult (.add rd rs rt ig) [rs, rt, rd] rd s t

/-- R112, R115, R116: `sub` writes the wrapped difference, `x[rs]` the minuend. That it wraps is D3; the
record holds values after the instruction (D11), keys in rising order (log 9). -/
def Obligations.SubWritesTheWrappedDifference : Prop :=
  ∀ (rd rs rt : Reg) (ig : BitVec 5) (s : State), ∃ t, exec (.sub rd rs rt ig) s = .next t ∧
    t.reg rd = s.reg rs - s.reg rt ∧
    (t.reg rd).toInt = wrap32 ((s.reg rs).toInt - (s.reg rt).toInt) ∧
    WritesOnlyResult (.sub rd rs rt ig) [rs, rt, rd] rd s t

/-- R113 and the record: which words are `and`, the result bit by bit, no flag, no exception, the pc. The record, no part
of R113, holds values after the instruction (D11), keys in rising order (log 9). -/
def Obligations.AndWritesTheBitwiseAnd : Prop :=
  (∀ w : Word, w &&& (0xFC00003F : Word) = 0x00000024 ↔ ∃ rd rs rt ig, decode w = .ok (.and rd rs rt ig)) ∧
  ∀ (rd rs rt : Reg) (ig : BitVec 5) (s : State), ∃ t, exec (.and rd rs rt ig) s = .next t ∧
    (∀ k, k < 32 → (t.reg rd).getLsbD k = ((s.reg rs).getLsbD k && (s.reg rt).getLsbD k)) ∧
    WritesOnlyResult (.and rd rs rt ig) [rs, rt, rd] rd s t

/-- R114 and the record: which words are `or`, the result bit by bit, no flag, no exception, the pc. The record, no part
of R114, holds values after the instruction (D11), keys in rising order (log 9). -/
def Obligations.OrWritesTheBitwiseOr : Prop :=
  (∀ w : Word, w &&& (0xFC00003F : Word) = 0x00000025 ↔ ∃ rd rs rt ig, decode w = .ok (.or rd rs rt ig)) ∧
  ∀ (rd rs rt : Reg) (ig : BitVec 5) (s : State), ∃ t, exec (.or rd rs rt ig) s = .next t ∧
    (∀ k, k < 32 → (t.reg rd).getLsbD k = ((s.reg rs).getLsbD k || (s.reg rt).getLsbD k)) ∧
    WritesOnlyResult (.or rd rs rt ig) [rs, rt, rd] rd s t

/-- R121, R123: `sll` moves each bit up by `shamt` and fills with zeros, whatever the ignored field. That the bits
beyond bit 31 are discarded is D16, that the record holds values after the instruction is D11, the spec's own
choices; that its keys are in rising order is the model's (log 9). -/
def Obligations.SllShiftsUpWithZeroFill : Prop :=
  ∀ (rd rt : Reg) (sh ig : BitVec 5) (s : State), ∃ t, exec (.sll rd rt sh ig) s = .next t ∧
    (t.reg rd).toNat = (s.reg rt).toNat * 2 ^ sh.toNat % 2 ^ 32 ∧
    (∀ k, k < 32 → (t.reg rd).getLsbD k =
      if sh.toNat ≤ k then (s.reg rt).getLsbD (k - sh.toNat) else false) ∧
    WritesOnlyResult (.sll rd rt sh ig) [rt, rd] rd s t

/-- R122 and the record: which words are `srl`; the quotient of the unsigned pattern; each bit; bit 31 clear for a
distance of 1 or more; no flag, no exception, the pc. The record, no part of R122, holds values after the
instruction (D11), keys in rising order (log 9). -/
def Obligations.SrlShiftsDownWithZeroFill : Prop :=
  (∀ w : Word, w &&& (0xFC00003F : Word) = 0x00000002 ↔ ∃ rd rt sh ig, decode w = .ok (.srl rd rt sh ig)) ∧
  ∀ (rd rt : Reg) (sh ig : BitVec 5) (s : State), ∃ t, exec (.srl rd rt sh ig) s = .next t ∧
    (t.reg rd).toNat = (s.reg rt).toNat / 2 ^ sh.toNat ∧
    (∀ k, k < 32 → (t.reg rd).getLsbD k =
      if k + sh.toNat ≤ 31 then (s.reg rt).getLsbD (k + sh.toNat) else false) ∧
    (1 ≤ sh.toNat → 0 ≤ (t.reg rd).toInt) ∧ (sh.toNat = 0 → t.reg rd = s.reg rt) ∧
    WritesOnlyResult (.srl rd rt sh ig) [rt, rd] rd s t

/-- R21: `x[0]` is an ordinary register: what an instruction writes to it is what a later read gives. -/
def Obligations.RegisterZeroIsOrdinary : Prop :=
  ∀ (r : Reg) (ig : BitVec 5) (s : State), ∃ t, exec (.or 0 r r ig) s = .next t ∧ t.reg 0 = s.reg r ∧
    ∀ (q : Reg), ∃ u, exec (.or q 0 0 ig) t = .next u ∧ u.reg q = s.reg r

/-- R73: the all-zero word is `sll x0, x0, 0` and changes neither register nor cell, whatever `x[0]` holds. -/
def Obligations.AllZeroWordChangesNoRegisterOrCell : Prop :=
  ∀ s : State, s.Ready → fetch s.prog s.pc = .word 0x00000000 → ∃ t, step s = .next t ∧
    t.x = s.x ∧ t.mem = s.mem ∧ t.pc = s.pc + 1 ∧ t.runState = .running

/-! ## Loads and stores -/

/-- R40, R43, R45, R130: the byte address is an exact integer in its 33-bit range; its cell is the floor of a quarter
of it, which is its arithmetic shift right by two. That the quotient is the floor is D4, that the displacement is
unsigned is D14, the spec's own choices. -/
def Obligations.ByteAddressReachesItsCell : Prop :=
  ∀ (base : Word) (imm : BitVec 16),
    effectiveAddress base imm = base.toInt + imm.toNat ∧
    -2 ^ 31 ≤ effectiveAddress base imm ∧ effectiveAddress base imm ≤ 2 ^ 31 + 65534 ∧
    4 * cellIndex (effectiveAddress base imm) ≤ effectiveAddress base imm ∧
    effectiveAddress base imm < 4 * cellIndex (effectiveAddress base imm) + 4 ∧
    cellIndex (effectiveAddress base imm) = effectiveAddress base imm >>> (2 : Nat)

/-- R132, R45: `lw` at a byte address in 0..1023, aligned or not, loads the whole cell that contains it; `rt = rs`
allowed. The unsigned displacement is D14, the record's values after the instruction are D11, its rising keys the
model's (log 9). -/
def Obligations.LoadInRangeReadsTheCell : Prop :=
  ∀ (rt rs : Reg) (imm : BitVec 16) (s : State) (ea : Int), ea = (s.reg rs).toInt + imm.toNat →
    0 ≤ ea → ea ≤ 1023 → ∃ t, exec (.lw rt rs imm) s = .next t ∧
      t.reg rt = s.mem.read (ea / 4).toNat ∧
      t = { s with
        x := s.x.set rt.val (t.reg rt)
        pc := s.pc + 1
        trace := some
          { word := encode (.lw rt rs imm), format := .iType, name := .lw,
            maps := some ⟨regMap [rs, rt] t, [((ea / 4).toNat, s.mem.read (ea / 4).toNat)]⟩ }
        illegalStrobe := none }

/-- R133, R42, R45: `sw` at a byte address in 0..1023 replaces the whole cell that contains it and nothing else. The
unsigned displacement is D14; the record's values after the instruction are D11, its rising keys the model's (log 9).
The memory is taken in its canonical form (log 1), which every step keeps. -/
def Obligations.StoreInRangeReplacesTheCell : Prop :=
  ∀ (rt rs : Reg) (imm : BitVec 16) (s : State) (ea : Int), s.mem.wf = true →
    ea = (s.reg rs).toInt + imm.toNat → 0 ≤ ea → ea ≤ 1023 →
    ∃ t, exec (.sw rt rs imm) s = .next t ∧
      (∀ c, t.mem.read c = if c = (ea / 4).toNat then s.reg rt else s.mem.read c) ∧
      t = { s with
        mem := t.mem
        pc := s.pc + 1
        trace := some
          { word := encode (.sw rt rs imm), format := .iType, name := .sw,
            maps := some ⟨regMap [rs, rt] s, [((ea / 4).toNat, s.reg rt)]⟩ }
        illegalStrobe := none }

/-- R41, R42, R173: `lw` and `sw` at a byte address outside 0..1023 write nothing, hold the pc, leave no record and
stop the machine with the offending index. That the run stops is D6, the floor is D4, the unsigned displacement
D14: the spec's own choices. That both ports are idle after it is the model's (log 8). -/
def Obligations.AccessOutOfRangeStopsTheMachine : Prop :=
  ∀ (rt rs : Reg) (imm : BitVec 16) (s : State) (ea : Int), ea = (s.reg rs).toInt + imm.toNat →
    ea < 0 ∨ 1023 < ea → ∀ i ∈ [Instr.lw rt rs imm, Instr.sw rt rs imm],
      exec i s = .next { s with
        runState := .faulted (.invalidAddress (ea / 4))
        trace := none
        illegalStrobe := none }

/-- R135: `sw` then `lw` through an address in the same cell gives the stored value, if nothing between them wrote the
cell or, where the `lw` goes through the same base, the base. That the displacement is unsigned is D14, the spec's own
choice (log 11). The memory is taken in its canonical form (log 1). -/
def Obligations.StoreThenLoadGivesTheValue : Prop :=
  ∀ (rv rs rd rb : Reg) (off off' : BitVec 16) (s : State), s.mem.wf = true →
    0 ≤ (s.reg rs).toInt + off.toNat → ((s.reg rs).toInt + off.toNat) / 4 ≤ 255 →
    ∃ t, exec (.sw rv rs off) s = .next t ∧
      (∃ u, exec (.lw rd rs off) t = .next u ∧ u.reg rd = s.reg rv) ∧
      ∀ t' : State, t'.mem.read (s.cell rs off) = t.mem.read (s.cell rs off) →
        ((t'.reg rb).toInt + off'.toNat) / 4 = ((s.reg rs).toInt + off.toNat) / 4 →
        ∃ u, exec (.lw rd rb off') t' = .next u ∧ u.reg rd = s.reg rv

/-- Two memories in canonical form that read alike in the 256 cells are one list: equal memories are equal data.
The list and its form are the model's (log 1). -/
def Obligations.EqualReadsMeanEqualMemories : Prop :=
  ∀ m m' : Memory, m.wf = true → m'.wf = true → (∀ c, c < 256 → m.read c = m'.read c) → m = m'

/-! ## Control transfer -/

/-- R141 whole: which words are `j`; the amount is added to the index-valued pc, unconditionally; no register, cell or
map; and a new pc at or past the end halts the run at the next fetch. -/
def Obligations.JumpAddsFourTimesItsField : Prop :=
  (∀ w : Word, w &&& (0xFC000000 : Word) = 0x08000000 ↔ ∃ n, decode w = .ok (.j n)) ∧
  ∀ (n : BitVec 26) (s : State), ∃ t, exec (.j n) s = .next t ∧
    t = { s with
      pc := s.pc + n.toNat * 4
      trace := some { word := encode (.j n), format := .jType, name := .j, maps := none }
      illegalStrobe := none } ∧
    (s.Ready → (s.prog.length : Int) ≤ t.pc → ∃ u, step t = .next u ∧ u.runState = .halted)

/-- R142: `beq` adds four times the sign-extended field to the pc when the two registers are equal, else 1; it writes
no register and no cell. A new pc at or past the end halts at the next fetch; one below 0 faults there, which is
D8, the spec's own choice. The rising keys of the record are the model's (log 9). -/
def Obligations.BranchOnEqualMovesThePc : Prop :=
  (∀ w : Word, w &&& (0xFC000000 : Word) = 0x10000000 ↔ ∃ rs rt imm, decode w = .ok (.beq rs rt imm)) ∧
  ∀ (rs rt : Reg) (imm : BitVec 16) (s : State), ∃ t, exec (.beq rs rt imm) s = .next t ∧
    (s.reg rs = s.reg rt → t.pc = s.pc + imm.toInt * 4) ∧ (s.reg rs ≠ s.reg rt → t.pc = s.pc + 1) ∧
    t = { s with
      pc := t.pc
      trace := some
        { word := encode (.beq rs rt imm), format := .iType, name := .beq,
          maps := some ⟨regMap [rs, rt] s, []⟩ }
      illegalStrobe := none } ∧
    (s.Ready → (s.prog.length : Int) ≤ t.pc → ∃ u, step t = .next u ∧ u.runState = .halted) ∧
    (s.Ready → t.pc < 0 → ∃ u, step t = .next u ∧ u.runState = .faulted (.invalidPC t.pc))

/-! ## Frames -/

/-- R22, R110, R120, R132: the frame of `sll`, `srl`, `add`, `sub`, `and`, `or`, `lw`, on every path: no register but
the destination, no cell, no launch parameter, no host input, no pause; the run state only by `lw`'s
InvalidAddress. -/
def Obligations.RegisterInstructionFrame : Prop :=
  ∀ (i : Instr) (rd : Reg) (s t : State), destination i = some rd → exec i s = .next t →
    (∀ r : Reg, r ≠ rd → t.reg r = s.reg r) ∧ (∀ c : Nat, t.mem.read c = s.mem.read c) ∧
    t.prog = s.prog ∧ t.mode = s.mode ∧ t.paused = s.paused ∧ t.answers = s.answers ∧
    (t.runState = s.runState ∨
      ∃ rt rs imm, i = .lw rt rs imm ∧ t.runState = .faulted (.invalidAddress (cellIndex (s.ea rs imm))))

/-- R22, R42, R133: the frame of `sw`, on every path: no register; no cell but the one its address computes to, which
stands for the four byte addresses of that cell (R40), and none at all when the index is out of range. -/
def Obligations.StoreFrame : Prop :=
  ∀ (rt rs : Reg) (imm : BitVec 16) (s t : State), exec (.sw rt rs imm) s = .next t →
    (∀ r : Reg, t.reg r = s.reg r) ∧
    (addrOk (cellIndex (s.ea rs imm)) = true →
      (∀ c : Nat, c ≠ s.cell rs imm → t.mem.read c = s.mem.read c) ∧ t.runState = s.runState) ∧
    (addrOk (cellIndex (s.ea rs imm)) = false → ∀ c : Nat, t.mem.read c = s.mem.read c) ∧
    t.prog = s.prog ∧ t.mode = s.mode ∧ t.paused = s.paused ∧ t.answers = s.answers

/-- R22, R140: the frame of `j` and `beq`: no register, no cell, no run state, nothing but the pc and the ports. -/
def Obligations.TransferFrame : Prop :=
  ∀ (i : Instr) (s t : State), i.op = .j ∨ i.op = .beq → exec i s = .next t →
    (∀ r : Reg, t.reg r = s.reg r) ∧ (∀ c : Nat, t.mem.read c = s.mem.read c) ∧ t.runState = s.runState ∧
    t.prog = s.prog ∧ t.mode = s.mode ∧ t.paused = s.paused ∧ t.answers = s.answers

/-- R22, R152: in any step, a register changes only if the fetched instruction names it as its destination, and then
no cell changes. -/
def Obligations.OnlyTheDestinationRegisterChanges : Prop :=
  ∀ (s t : State) (r : Reg), step s = .next t → t.reg r ≠ s.reg r →
    t.mem = s.mem ∧ ∃ w i, Fetches s w i ∧ destination i = some r

/-- R29, R152: in any step, the data memory changes only by an `sw` whose index is in range, and then only as R42
says; no register changes. -/
def Obligations.OnlyAStoreInRangeChangesMemory : Prop :=
  ∀ s t : State, step s = .next t → t.mem ≠ s.mem →
    t.x = s.x ∧ ∃ w rt rs imm, Fetches s w (.sw rt rs imm) ∧ addrOk (cellIndex (s.ea rs imm)) = true ∧
      t.mem = s.mem.write (s.cell rs imm) (s.reg rt)

/-! ## The step -/

/-- R91 to R93: at a slot whose word is an instruction, the step is the instruction's meaning, then the pause of
single-step mode if the machine is still Running (R97, R159). -/
def Obligations.StepRunsTheDecodedInstruction : Prop :=
  ∀ (s : State) (w : Word) (i : Instr), s.runState = .running → (s.mode = .singleStep → s.paused = false) →
    0 ≤ s.pc → s.prog[s.pc.toNat]? = some w → decode w = .ok i → ∃ t, exec i s = .next t ∧
      step s = .next
        (if t.mode = .singleStep ∧ t.runState = .running then { t with paused := true } else t)

/-- R171: an illegal word writes nothing, strobes with the word and its slot, moves the pc to the next slot, leaves the
machine Running and leaves no record; in the last slot, the fetch after it halts. That there is no record is D7, the
spec's own choice (log 12); that both ports are idle after the halting step is the model's (log 8). -/
def Obligations.StepSkipsAnIllegalWord : Prop :=
  ∀ (s : State) (w : Word) (e : Illegal), s.runState = .running → (s.mode = .singleStep → s.paused = false) →
    0 ≤ s.pc → s.prog[s.pc.toNat]? = some w → decode w = .error e → ∃ t, step s = .next t ∧
      t.x = s.x ∧ t.mem = s.mem ∧ t.illegalStrobe = some ⟨w, s.pc⟩ ∧ t.pc = s.pc + 1 ∧
      t.runState = .running ∧ t.trace = none ∧ t.prog = s.prog ∧ t.mode = s.mode ∧ t.answers = s.answers ∧
      (s.pc + 1 = s.prog.length → fetch t.prog t.pc = .pastEnd) ∧
      (s.mode = .runAll → s.pc + 1 = s.prog.length →
        step t = .next { t with runState := .halted, trace := none, illegalStrobe := none })

/-- R91, R99: a step that handles a slot ends in Halted exactly when the pc is at or past the end of the program, the
empty program included; then nothing but the run state and the ports changes. That both ports are idle then is the
model's choice (log 8). -/
def Obligations.StepHaltsExactlyPastTheEnd : Prop :=
  ∀ s t : State, s.Ready → step s = .next t →
    (t.runState = .halted ↔ (s.prog.length : Int) ≤ s.pc) ∧
    (t.runState = .halted → t = { s with runState := .halted, trace := none, illegalStrobe := none })

/-- R175 (D8, the spec's own choice): a step that handles a slot ends in InvalidPC exactly when the pc is negative,
presents that pc, and changes nothing else. That both ports are idle then is the model's choice (log 8). -/
def Obligations.StepFaultsExactlyOnANegativePc : Prop :=
  ∀ s t : State, s.Ready → step s = .next t → ∀ p : Int,
    (t.runState = .faulted (.invalidPC p) ↔ s.pc < 0 ∧ p = s.pc) ∧
    (s.pc < 0 →
      t = { s with runState := .faulted (.invalidPC s.pc), trace := none, illegalStrobe := none })

/-- R173, R177: a step that ends in InvalidAddress fetched a `lw` or `sw`, did nothing to registers, memory or pc,
presents an index outside 0..255, and neither strobes nor records (D6, the spec's own choice). That both ports are idle after it is the model's
(log 8). -/
def Obligations.InvalidAddressIsPrecise : Prop :=
  ∀ (s t : State) (idx : Int), s.Ready → step s = .next t → t.runState = .faulted (.invalidAddress idx) →
    (idx < 0 ∨ 255 < idx) ∧ t.x = s.x ∧ t.mem = s.mem ∧ t.pc = s.pc ∧ t.trace = none ∧
    t.illegalStrobe = none ∧ ∃ w i, Fetches s w i ∧ (i.op = .lw ∨ i.op = .sw)

/-- R25, R99: in the three terminal states nothing changes any more, however many steps are asked for. -/
def Obligations.TerminalStatesNeverChange : Prop :=
  ∀ s : State, s.runState = .halted ∨ s.runState = .userQuit ∨ (∃ c, s.runState = .faulted c) →
    ∀ k : Nat, Sys2Proof.core.run k s = .next s

/-- R197: in `Run_All` mode a Running machine handles a slot in its next step and never waits; the step leaves it ready
for the next slot, or ended other than by a quit. -/
def Obligations.RunAllAlwaysTakesItsNextStep : Prop :=
  ∀ s : State, s.mode = .runAll → s.runState = .running → ∃ t, step s = .next t ∧ stepSlot s = .next t ∧
    (t.runState = .running → t.Ready) ∧ t.runState ≠ .userQuit

/-- R143, R95: a step that leaves the machine Running moves the pc to the next slot or by a multiple of four slots within
the two fields' ranges. -/
def Obligations.PcMovesByOneOrAMultipleOfFour : Prop :=
  ∀ s t : State, s.Ready → step s = .next t → t.runState = .running →
    t.pc = s.pc + 1 ∨ ∃ k : Int, -32768 ≤ k ∧ k ≤ 67108863 ∧ t.pc = s.pc + 4 * k

/-- R175: from a pc of 0 or more, only a taken `beq` with a negative offset larger than its own slot number makes the
pc negative. -/
def Obligations.OnlyATakenBranchMakesThePcNegative : Prop :=
  ∀ s t : State, 0 ≤ s.pc → step s = .next t → t.pc < 0 →
    ∃ w rs rt imm, Fetches s w (.beq rs rt imm) ∧ s.reg rs = s.reg rt ∧ 32768 ≤ imm.toNat ∧
      t.pc = s.pc + ((imm.toNat : Int) - 65536) * 4

/-- The invariant is kept by every step (R24, R25, R53, R99, R159, R173, R175; the canonical form of the memory). -/
def Obligations.StepKeepsTheInvariant : Prop :=
  ∀ s t : State, s.Inv → step s = .next t → t.Inv

/-- What every run of every launch keeps: the invariant, the program store and the mode (R29, R53, R158, R195). -/
def Obligations.EveryReachedStateMeetsTheInvariant : Prop :=
  ∀ (l : Config.Launch) (s t : State), State.launch l = .next s → Reaches s t →
    t.Inv ∧ t.prog = l.prog ∧ t.mode = l.mode

/-- R29, R53, R158, R163, R195: no run, from any state, changes the program store or the mode, so a fetch at any pc finds
what it found before. -/
def Obligations.NoRunChangesProgramOrMode : Prop :=
  ∀ s t : State, Reaches s t → t.prog = s.prog ∧ t.mode = s.mode ∧ ∀ pc, fetch t.prog pc = fetch s.prog pc

/-- R24 (D1, D2, the spec's own choices): in a state that meets the invariant the pc is the value of a 32-bit
two's-complement register, before and after its update by any instruction that completes. -/
def Obligations.PcFitsA32BitRegister : Prop :=
  ∀ s t : State, s.Inv → step s = .next t →
    (BitVec.ofInt 32 s.pc).toInt = s.pc ∧ (BitVec.ofInt 32 t.pc).toInt = t.pc

/-! ## The host, the pause and the ports -/

/-- R159, R97: in `Single_Step` mode a step that handles a slot leaves the core paused exactly if it is still Running
(after an illegal word too: D17), and while no answer is waiting it stays so with all state kept. That the answers are a
queue in the state, to which none is added in these steps, is the model's choice (log 7). -/
def Obligations.SingleStepPausesAfterEachStep : Prop :=
  ∀ s t : State, s.mode = .singleStep → s.Ready → step s = .next t →
    (t.paused = true ↔ t.runState = .running) ∧
    (t.runState = .running → t.answers = [] → ∀ k : Nat, Sys2Proof.core.run k t = .next t)

/-- R160: what the host's next answer does at a pause: continue, quit (registers, memory and pc as they were: D13), or
any other answer, which leaves the core paused. That answers are a queue and one is taken in a step of its own is the
model's choice (log 7), and so is that quit clears the ports and another answer keeps them (log 8). -/
def Obligations.HostAnswersAtThePause : Prop :=
  ∀ (s : State) (rest : List HostAnswer), s.runState = .running → s.mode = .singleStep → s.paused = true →
    (s.answers = .cont :: rest → ∃ t, step s = .next t ∧ t.Ready ∧ t.x = s.x ∧ t.mem = s.mem ∧ t.pc = s.pc ∧
      t.answers = rest) ∧
    (s.answers = .quit :: rest → ∃ t, step s = .next t ∧ t.runState = .userQuit ∧ t.x = s.x ∧ t.mem = s.mem ∧
      t.pc = s.pc ∧ t.trace = none ∧ step t = .next t) ∧
    (s.answers = .other :: rest → step s = .next { s with answers := rest })

/-- R160: in `Run_All` mode the host's answers are not looked at. -/
def Obligations.RunAllIgnoresTheHostsAnswers : Prop :=
  ∀ (s t : State) (as : List HostAnswer), s.mode = .runAll → step s = .next t →
    step { s with answers := as } = .next { t with answers := as } ∧ t.answers = s.answers

/-- R157: what the ports show never reaches registers, memory, pc or run state. -/
def Obligations.PortsDoNotFeedBack : Prop :=
  ∀ s s' t : State, SameButPorts s s' → step s = .next t → ∃ t', step s' = .next t' ∧ SameButPorts t t'

/-- R158, R97: the mode changes nothing about what a step computes. -/
def Obligations.ModeDoesNotChangeWhatAStepComputes : Prop :=
  ∀ (s t : State) (m : Config.Mode), s.Ready → step s = .next t →
    ∃ t', step { s with mode := m, paused := false } = .next t' ∧ SameComputation t t'

/-- R153, R155: the record on the port after a slot's step is of the word fetched, with its instruction's name and format
tag, and `j` alone has no maps. -/
def Obligations.TraceRecordIsOfTheFetchedWord : Prop :=
  ∀ (s t : State) (r : TraceRecord), s.Ready → step s = .next t → t.trace = some r →
    ∃ i, Fetches s r.word i ∧ r.name = i.op ∧ r.format = i.op.format ∧ (r.maps = none ↔ i.op = .j)

/-- R154: a record's register map lists exactly the registers of the table, each once, with the value after the step
(D11, the spec's own choice); its memory map exactly the cell reached. That the keys are in rising order is the
model's choice (log 9). -/
def Obligations.TraceMapsListWhatTheInstructionTouched : Prop :=
  ∀ (s t : State) (r : TraceRecord) (m : TraceMaps) (i : Instr), Fetches s r.word i → step s = .next t →
    t.trace = some r → r.maps = some m →
      (m.regs.map Prod.fst).Pairwise (· < ·) ∧
      (∀ (k : Reg) (v : Word), (k, v) ∈ m.regs ↔ k ∈ touched i ∧ v = t.reg k) ∧
      m.mem = (touchedCells s i).map fun c => (c, t.mem.read c)

/-- R93, R156, R161, R177: of a slot's step exactly one of three things holds: it completed an instruction and left a
record; it met an illegal word and strobed with the word and its slot; it ended the run and left both ports idle.
That an illegal word and a fault leave no record is D7 and D6; that both ports are idle at a step that ends the run is
the model's choice (log 8). -/
def Obligations.EachStepRecordsStrobesOrEnds : Prop :=
  ∀ s t : State, s.Ready → step s = .next t →
    (t.runState = .running ∧ t.trace.isSome = true ∧ t.illegalStrobe = none ∧ ∃ w i, Fetches s w i) ∨
    (t.runState = .running ∧ t.trace = none ∧
      ∃ w e, fetch s.prog s.pc = .word w ∧ decode w = .error e ∧ t.illegalStrobe = some ⟨w, s.pc⟩) ∨
    (t.runState ≠ .running ∧ t.trace = none ∧ t.illegalStrobe = none)

/-- R162: the host reads all 32 registers and all 256 cells after Halted and only then; the final report is that of
`Run_All` mode; `fault_cause` and `fault_value` (R151) are seen in Faulted and only then, the value being the index or
the pc that the cause presents. -/
def Obligations.ReadBackOnlyAfterHalted : Prop :=
  ∀ s : State,
    (s.readBack.isSome = true ↔ s.runState = .halted) ∧
    (∀ rs ms, s.readBack = some (rs, ms) → rs.length = 32 ∧ ms.length = 256 ∧
      (∀ r : Reg, rs[r.val]? = some (s.reg r)) ∧ ∀ c, c < 256 → ms[c]? = some (s.mem.read c)) ∧
    s.finalReport = (if s.mode = .runAll then s.readBack else none) ∧
    (∀ c, s.faultCause = some c ↔ s.runState = .faulted c) ∧
    (∀ v, s.faultValue = some v ↔
      s.runState = .faulted (.invalidAddress v) ∨ s.runState = .faulted (.invalidPC v))

/-! ## The blocks -/

/-- R150 to R152: in a state that meets the invariant, the blocks' signals for the fetched word, each at its own width,
are what the step does: the selects, the register file, the memory, the 32-bit pc, the fault and its index, the
strobe and the format tag. The blocks, their signals and widths are D10, the spec's own choice, written out a second
time (log 13); that a fault leaves no record is D6, that it leaves the ports idle is the model's choice (log 8). -/
def Obligations.BlocksComputeWhatTheStepDoes : Prop :=
  ∀ (s : State) (w : Word), s.Inv → s.Ready → fetch s.prog s.pc = .word w → ∃ t, step s = .next t ∧
    (∀ o, Blocks.isOp (extract w) o = true ↔ ∃ i, decode w = .ok i ∧ i.op = o) ∧
    t.x = Blocks.nextX s.x s.mem (extract w) ∧ t.mem = Blocks.nextMem s.x s.mem (extract w) ∧
    t.pc = (Blocks.pcNext s.x (BitVec.ofInt 32 s.pc) (extract w)).toInt ∧
    t.runState = (if Blocks.fault s.x (extract w) then
      .faulted (.invalidAddress (Blocks.idx s.x (extract w)).toInt) else .running) ∧
    t.illegalStrobe = (if Blocks.illegal (extract w) then some ⟨w, s.pc⟩ else none) ∧
    t.trace.map (·.format) = (if Blocks.fault s.x (extract w) then none else Blocks.fmt (extract w))

/-- R151: the address calculator's 33-bit sum and 31-bit index lose nothing of the exact address and index. The signals
and the 31-bit index are D10 (log 13), the unsigned displacement in the sum is D14, the floor in the shift D4: the
spec's own choices. -/
def Obligations.AddressCalculatorIsExactIn33Bits : Prop :=
  ∀ (x : Vector Word 32) (f : Fields),
    (Blocks.ea x f).toInt = effectiveAddress (Blocks.rsVal x f) f.imm ∧
    (Blocks.idx x f).toInt = cellIndex (effectiveAddress (Blocks.rsVal x f) f.imm) ∧
    Blocks.addrOk x f = addrOk (cellIndex (effectiveAddress (Blocks.rsVal x f) f.imm))
end

