-- ==== Sys2Proof/Laws/Decode.lean ====
section
/-! SUPPORT. The decoder's fields and the encoder's words as numbers, and the masks of R71 as the two fields they
look at. The numerals are written out (not as powers of two), so that proofs by `omega` stay cheap. -/

namespace Sys2Proof

@[simp] theorem regOf_regBits (r : Reg) : regOf (regBits r) = r := rfl

@[simp] theorem regBits_regOf (b : BitVec 5) : regBits (regOf b) = b := rfl

section Fields

variable (w : Word)

theorem extract_opcode_toNat : (extract w).opcode.toNat = w.toNat / 67108864 % 64 := by
  simp [extract, Nat.shiftRight_eq_div_pow]

theorem extract_rs_toNat : (extract w).rs.toNat = w.toNat / 2097152 % 32 := by
  simp [extract, Nat.shiftRight_eq_div_pow]

theorem extract_rt_toNat : (extract w).rt.toNat = w.toNat / 65536 % 32 := by
  simp [extract, Nat.shiftRight_eq_div_pow]

theorem extract_rd_toNat : (extract w).rd.toNat = w.toNat / 2048 % 32 := by
  simp [extract, Nat.shiftRight_eq_div_pow]

theorem extract_shamt_toNat : (extract w).shamt.toNat = w.toNat / 64 % 32 := by
  simp [extract, Nat.shiftRight_eq_div_pow]

theorem extract_funct_toNat : (extract w).funct.toNat = w.toNat % 64 := by
  simp [extract, Nat.shiftRight_eq_div_pow]

theorem extract_imm_toNat : (extract w).imm.toNat = w.toNat % 65536 := by
  simp [extract, Nat.shiftRight_eq_div_pow]

theorem extract_addr26_toNat : (extract w).addr26.toNat = w.toNat % 67108864 := by
  simp [extract, Nat.shiftRight_eq_div_pow]

end Fields

section Words

variable (opcode : BitVec 6) (rs rt rd shamt : BitVec 5) (funct : BitVec 6) (imm : BitVec 16) (addr26 : BitVec 26)

theorem rWord_toNat : (rWord opcode rs rt rd shamt funct).toNat =
    opcode.toNat * 67108864 + rs.toNat * 2097152 + rt.toNat * 65536 + rd.toNat * 2048 + shamt.toNat * 64 +
      funct.toNat := by
  simp only [rWord, BitVec.toNat_ofNat]
  omega

theorem iWord_toNat : (iWord opcode rs rt imm).toNat =
    opcode.toNat * 67108864 + rs.toNat * 2097152 + rt.toNat * 65536 + imm.toNat := by
  simp only [iWord, BitVec.toNat_ofNat]
  omega

theorem jWord_toNat : (jWord opcode addr26).toNat = opcode.toNat * 67108864 + addr26.toNat := by
  simp only [jWord, BitVec.toNat_ofNat]
  omega

theorem extract_rWord_opcode : (extract (rWord opcode rs rt rd shamt funct)).opcode = opcode := by
  apply BitVec.eq_of_toNat_eq
  rw [extract_opcode_toNat, rWord_toNat]
  omega

theorem extract_rWord_funct : (extract (rWord opcode rs rt rd shamt funct)).funct = funct := by
  apply BitVec.eq_of_toNat_eq
  rw [extract_funct_toNat, rWord_toNat]
  omega

theorem extract_iWord_opcode : (extract (iWord opcode rs rt imm)).opcode = opcode := by
  apply BitVec.eq_of_toNat_eq
  rw [extract_opcode_toNat, iWord_toNat]
  omega

theorem extract_jWord_opcode : (extract (jWord opcode addr26)).opcode = opcode := by
  apply BitVec.eq_of_toNat_eq
  rw [extract_opcode_toNat, jWord_toNat]
  omega

end Words

/-- The mask of the six R-type rows keeps exactly opcode and funct (R71). -/
theorem and_mask_opcode_funct (w : Word) :
    w &&& (0xFC00003F : Word) =
      ((extract w).opcode.setWidth 32 <<< 26) ||| (extract w).funct.setWidth 32 := by
  apply BitVec.eq_of_getLsbD_eq
  intro k hk
  interval_cases k <;> simp [extract]

/-- The mask of the other four rows keeps exactly the opcode (R71). -/
theorem and_mask_opcode (w : Word) : w &&& (0xFC000000 : Word) = (extract w).opcode.setWidth 32 <<< 26 := by
  apply BitVec.eq_of_getLsbD_eq
  intro k hk
  interval_cases k <;> simp [extract]

end Sys2Proof
end

