-- ==== Sys2Proof/Laws/State.lean ====
section
/-! SUPPORT. One lemma per field per update of State, each true by unfolding the update once, so that no later proof
unfolds a record update. -/

namespace Sys2Proof.Machine

section Registers

variable (s : State) (r : Reg) (v : Word)

@[simp] theorem State.setReg_x : (s.setReg r v).x = s.x.set r.val v := rfl

@[simp] theorem State.setReg_mem : (s.setReg r v).mem = s.mem := rfl

@[simp] theorem State.setReg_pc : (s.setReg r v).pc = s.pc := rfl

@[simp] theorem State.setReg_runState : (s.setReg r v).runState = s.runState := rfl

@[simp] theorem State.setReg_prog : (s.setReg r v).prog = s.prog := rfl

@[simp] theorem State.setReg_mode : (s.setReg r v).mode = s.mode := rfl

@[simp] theorem State.setReg_paused : (s.setReg r v).paused = s.paused := rfl

@[simp] theorem State.setReg_answers : (s.setReg r v).answers = s.answers := rfl

@[simp] theorem State.setReg_trace : (s.setReg r v).trace = s.trace := rfl

@[simp] theorem State.setReg_illegalStrobe : (s.setReg r v).illegalStrobe = s.illegalStrobe := rfl

@[simp] theorem State.reg_setReg_self : (s.setReg r v).reg r = v := by
  simp [State.reg, State.setReg]

@[simp] theorem State.reg_setReg_of_ne (q : Reg) (h : q ≠ r) : (s.setReg r v).reg q = s.reg q := by
  simp [State.reg, State.setReg, Fin.val_ne_of_ne (Ne.symm h)]

theorem State.reg_setReg (q : Reg) : (s.setReg r v).reg q = if q = r then v else s.reg q := by
  by_cases h : q = r <;> simp [h]

/-- Writing back what a register holds changes nothing. -/
@[simp] theorem State.setReg_reg_self : s.setReg r (s.reg r) = s := by
  simp [State.setReg, State.reg]

/-- Two register files that read alike are equal. -/
theorem State.x_eq_of_reg (t : State) (h : ∀ q : Reg, t.reg q = s.reg q) : t.x = s.x :=
  Vector.ext fun k hk => h ⟨k, hk⟩

theorem State.reg_eq_of_x (t : State) (h : t.x = s.x) (q : Reg) : t.reg q = s.reg q := by
  simp only [State.reg, h]

end Registers

section Completing

variable (i : Instr) (cell : Option Nat) (d : Directive) (s : State)

@[simp] theorem complete_x : (complete i cell d s).x = s.x := rfl

@[simp] theorem complete_mem : (complete i cell d s).mem = s.mem := rfl

@[simp] theorem complete_pc : (complete i cell d s).pc = pcAfter d s.pc := rfl

@[simp] theorem complete_runState : (complete i cell d s).runState = s.runState := rfl

@[simp] theorem complete_prog : (complete i cell d s).prog = s.prog := rfl

@[simp] theorem complete_mode : (complete i cell d s).mode = s.mode := rfl

@[simp] theorem complete_paused : (complete i cell d s).paused = s.paused := rfl

@[simp] theorem complete_answers : (complete i cell d s).answers = s.answers := rfl

@[simp] theorem complete_trace : (complete i cell d s).trace = some (traceRecord i cell s) := rfl

@[simp] theorem complete_illegalStrobe : (complete i cell d s).illegalStrobe = none := rfl

@[simp] theorem complete_reg : ∀ q : Reg, (complete i cell d s).reg q = s.reg q := fun _ => rfl

end Completing

section Results

variable (i : Instr) (rd : Reg) (v : Word) (s : State)

@[simp] theorem writeResult_x : (writeResult i rd v s).x = s.x.set rd.val v := rfl

@[simp] theorem writeResult_mem : (writeResult i rd v s).mem = s.mem := rfl

@[simp] theorem writeResult_pc : (writeResult i rd v s).pc = s.pc + 1 := rfl

@[simp] theorem writeResult_runState : (writeResult i rd v s).runState = s.runState := rfl

@[simp] theorem writeResult_prog : (writeResult i rd v s).prog = s.prog := rfl

@[simp] theorem writeResult_mode : (writeResult i rd v s).mode = s.mode := rfl

@[simp] theorem writeResult_paused : (writeResult i rd v s).paused = s.paused := rfl

@[simp] theorem writeResult_answers : (writeResult i rd v s).answers = s.answers := rfl

@[simp] theorem writeResult_trace : (writeResult i rd v s).trace = some (traceRecord i none (s.setReg rd v)) := rfl

@[simp] theorem writeResult_illegalStrobe : (writeResult i rd v s).illegalStrobe = none := rfl

@[simp] theorem writeResult_reg (q : Reg) : (writeResult i rd v s).reg q = (s.setReg rd v).reg q := rfl

end Results

section Conditions

variable (c : Condition) (s : State)

@[simp] theorem takeCondition_x : (takeCondition c s).x = s.x := by cases c <;> rfl

@[simp] theorem takeCondition_mem : (takeCondition c s).mem = s.mem := by cases c <;> rfl

@[simp] theorem takeCondition_prog : (takeCondition c s).prog = s.prog := by cases c <;> rfl

@[simp] theorem takeCondition_mode : (takeCondition c s).mode = s.mode := by cases c <;> rfl

@[simp] theorem takeCondition_paused : (takeCondition c s).paused = s.paused := by cases c <;> rfl

@[simp] theorem takeCondition_answers : (takeCondition c s).answers = s.answers := by cases c <;> rfl

@[simp] theorem takeCondition_trace : (takeCondition c s).trace = none := by cases c <;> rfl

@[simp] theorem takeCondition_reg (q : Reg) : (takeCondition c s).reg q = s.reg q := by cases c <;> rfl

variable (w : Word) (v : Int)

@[simp] theorem takeIllegal_pc : (takeCondition (.illegalInstruction w) s).pc = s.pc + 1 := rfl

@[simp] theorem takeIllegal_runState : (takeCondition (.illegalInstruction w) s).runState = s.runState := rfl

@[simp] theorem takeIllegal_illegalStrobe : (takeCondition (.illegalInstruction w) s).illegalStrobe = some ⟨w, s.pc⟩ := rfl

@[simp] theorem takeInvalidAddress_pc : (takeCondition (.invalidAddress v) s).pc = s.pc := rfl

@[simp] theorem takeInvalidAddress_runState : (takeCondition (.invalidAddress v) s).runState = .faulted (.invalidAddress v) := rfl

@[simp] theorem takeInvalidAddress_illegalStrobe : (takeCondition (.invalidAddress v) s).illegalStrobe = none := rfl

@[simp] theorem takeInvalidPC_pc : (takeCondition (.invalidPC v) s).pc = s.pc := rfl

@[simp] theorem takeInvalidPC_runState : (takeCondition (.invalidPC v) s).runState = .faulted (.invalidPC v) := rfl

@[simp] theorem takeInvalidPC_illegalStrobe : (takeCondition (.invalidPC v) s).illegalStrobe = none := rfl

end Conditions

section Driver

variable (s : State)

@[simp] theorem State.halt_x : s.halt.x = s.x := rfl

@[simp] theorem State.halt_mem : s.halt.mem = s.mem := rfl

@[simp] theorem State.halt_pc : s.halt.pc = s.pc := rfl

@[simp] theorem State.halt_runState : s.halt.runState = .halted := rfl

@[simp] theorem State.halt_prog : s.halt.prog = s.prog := rfl

@[simp] theorem State.halt_mode : s.halt.mode = s.mode := rfl

@[simp] theorem State.halt_paused : s.halt.paused = s.paused := rfl

@[simp] theorem State.halt_answers : s.halt.answers = s.answers := rfl

@[simp] theorem State.halt_trace : s.halt.trace = none := rfl

@[simp] theorem State.halt_illegalStrobe : s.halt.illegalStrobe = none := rfl

@[simp] theorem State.pauseIfStepping_x : s.pauseIfStepping.x = s.x := by
  unfold State.pauseIfStepping; split <;> rfl

@[simp] theorem State.pauseIfStepping_mem : s.pauseIfStepping.mem = s.mem := by
  unfold State.pauseIfStepping; split <;> rfl

@[simp] theorem State.pauseIfStepping_pc : s.pauseIfStepping.pc = s.pc := by
  unfold State.pauseIfStepping; split <;> rfl

@[simp] theorem State.pauseIfStepping_runState : s.pauseIfStepping.runState = s.runState := by
  unfold State.pauseIfStepping; split <;> rfl

@[simp] theorem State.pauseIfStepping_prog : s.pauseIfStepping.prog = s.prog := by
  unfold State.pauseIfStepping; split <;> rfl

@[simp] theorem State.pauseIfStepping_mode : s.pauseIfStepping.mode = s.mode := by
  unfold State.pauseIfStepping; split <;> rfl

@[simp] theorem State.pauseIfStepping_paused : s.pauseIfStepping.paused =
    (s.paused || (decide (s.mode = .singleStep) && decide (s.runState = .running))) := by
  unfold State.pauseIfStepping; split <;> simp_all

@[simp] theorem State.pauseIfStepping_answers : s.pauseIfStepping.answers = s.answers := by
  unfold State.pauseIfStepping; split <;> rfl

@[simp] theorem State.pauseIfStepping_trace : s.pauseIfStepping.trace = s.trace := by
  unfold State.pauseIfStepping; split <;> rfl

@[simp] theorem State.pauseIfStepping_illegalStrobe : s.pauseIfStepping.illegalStrobe = s.illegalStrobe := by
  unfold State.pauseIfStepping; split <;> rfl

@[simp] theorem State.pauseIfStepping_reg : ∀ q : Reg, s.pauseIfStepping.reg q = s.reg q := fun q =>
  State.reg_eq_of_x s s.pauseIfStepping (State.pauseIfStepping_x s) q

@[simp] theorem State.answerPause_x : s.answerPause.x = s.x := by
  unfold State.answerPause; split <;> rfl

@[simp] theorem State.answerPause_mem : s.answerPause.mem = s.mem := by
  unfold State.answerPause; split <;> rfl

@[simp] theorem State.answerPause_pc : s.answerPause.pc = s.pc := by
  unfold State.answerPause; split <;> rfl

@[simp] theorem State.answerPause_prog : s.answerPause.prog = s.prog := by
  unfold State.answerPause; split <;> rfl

@[simp] theorem State.answerPause_mode : s.answerPause.mode = s.mode := by
  unfold State.answerPause; split <;> rfl

@[simp] theorem State.offerAnswer_x (a : HostAnswer) : (s.offerAnswer a).x = s.x := rfl

@[simp] theorem State.offerAnswer_mem (a : HostAnswer) : (s.offerAnswer a).mem = s.mem := rfl

@[simp] theorem State.offerAnswer_pc (a : HostAnswer) : (s.offerAnswer a).pc = s.pc := rfl

@[simp] theorem State.offerAnswer_runState (a : HostAnswer) : (s.offerAnswer a).runState = s.runState := rfl

@[simp] theorem State.offerAnswer_prog (a : HostAnswer) : (s.offerAnswer a).prog = s.prog := rfl

@[simp] theorem State.offerAnswer_mode (a : HostAnswer) : (s.offerAnswer a).mode = s.mode := rfl

@[simp] theorem State.offerAnswer_paused (a : HostAnswer) : (s.offerAnswer a).paused = s.paused := rfl

@[simp] theorem State.offerAnswer_answers (a : HostAnswer) : (s.offerAnswer a).answers = s.answers ++ [a] := rfl

@[simp] theorem State.offerAnswer_trace (a : HostAnswer) : (s.offerAnswer a).trace = s.trace := rfl

@[simp] theorem State.offerAnswer_illegalStrobe (a : HostAnswer) : (s.offerAnswer a).illegalStrobe = s.illegalStrobe := rfl

@[simp] theorem State.placeWord_x (w : Word) : (s.placeWord w).x = s.x := rfl

@[simp] theorem State.placeWord_mem (w : Word) : (s.placeWord w).mem = s.mem := rfl

@[simp] theorem State.placeWord_mode (w : Word) : (s.placeWord w).mode = s.mode := rfl

@[simp] theorem State.placeWord_answers (w : Word) : (s.placeWord w).answers = s.answers := rfl

@[simp] theorem State.placeWord_trace (w : Word) : (s.placeWord w).trace = s.trace := rfl

@[simp] theorem State.placeWord_illegalStrobe (w : Word) : (s.placeWord w).illegalStrobe = s.illegalStrobe := rfl

@[simp] theorem State.placeWord_runState (w : Word) : (s.placeWord w).runState = .running := rfl

@[simp] theorem State.placeWord_paused (w : Word) : (s.placeWord w).paused = false := rfl

section Launch

variable (l : Config.Launch)

@[simp] theorem launched_x : (State.launched l).x = launchRegs l.regInit := rfl

@[simp] theorem launched_mem : (State.launched l).mem = launchMemFrom 0 l.memInit := rfl

@[simp] theorem launched_pc : (State.launched l).pc = 0 := rfl

@[simp] theorem launched_runState : (State.launched l).runState = .running := rfl

@[simp] theorem launched_prog : (State.launched l).prog = l.prog := rfl

@[simp] theorem launched_mode : (State.launched l).mode = l.mode := rfl

@[simp] theorem launched_paused : (State.launched l).paused = false := rfl

/-- A launch fits exactly when its three lists are within the sizes of R6. -/
theorem launch_wf_iff : l.wf = true ↔
    l.regInit.length ≤ 32 ∧ l.memInit.length ≤ 256 ∧ l.prog.length ≤ Config.progMax := by
  simp only [Config.Launch.wf, Config.Launch.regsFit, Config.Launch.memFits, Config.Launch.progFits,
    Bool.and_eq_true, decide_eq_true_eq, and_assoc]
  exact Iff.rfl

/-- All that a launch answers. -/
theorem launch_cases : (l.wf = true ∧ State.launch l = .next (State.launched l)) ∨
    (l.wf = false ∧ State.launch l = .refused .launchDoesNotFit) := by
  cases h : l.wf <;> simp [State.launch, h]

/-- A launch that is not refused leaves `State.launched`. -/
theorem launch_next {s : State} (h : State.launch l = .next s) : l.wf = true ∧ s = State.launched l := by
  obtain ⟨hw, e⟩ | ⟨-, e⟩ := launch_cases l
  · exact ⟨hw, (Host.Outcome.next.inj (e.symm.trans h)).symm⟩
  · exact Host.Outcome.noConfusion rfl rfl rfl (heq_of_eq (e.symm.trans h))

end Launch

@[simp] theorem thenPause_next : thenPause (.next s) = .next s.pauseIfStepping := rfl

end Driver

end Sys2Proof.Machine
end

