-- ==== Sys2Proof/Laws/Memory.lean ====
section
/-! SUPPORT. The data memory: every operation keeps the canonical form, a read after a write, and what the two access
primitives of R41 and R42 can answer. -/

namespace Sys2Proof.Machine

theorem Memory.wfFrom_cons (lo k : Nat) (v : Word) (m : Memory) :
    Memory.wfFrom lo ((k, v) :: m) = true ↔
      lo ≤ k ∧ k < 256 ∧ v ≠ Memory.unlisted ∧ Memory.wfFrom (k + 1) m = true := by
  simp only [Memory.wfFrom, Bool.and_eq_true, decide_eq_true_eq, and_assoc]
  simp only [Config.memWords]

theorem Memory.wfFrom_mono {lo lo' : Nat} (h : lo' ≤ lo) :
    ∀ {m : Memory}, Memory.wfFrom lo m = true → Memory.wfFrom lo' m = true
  | [], _ => rfl
  | (k, v) :: m, hm => by
    rw [Memory.wfFrom_cons] at hm ⊢
    exact ⟨h.trans hm.1, hm.2⟩

/-- A cell below every entry reads as unlisted. -/
theorem Memory.read_below {i : Nat} :
    ∀ {lo : Nat} {m : Memory}, Memory.wfFrom lo m = true → i < lo → Memory.read m i = Memory.unlisted
  | _, [], _, _ => rfl
  | lo, (k, v) :: m, hm, hi => by
    rw [Memory.wfFrom_cons] at hm
    have hk : k ≠ i := by omega
    simp only [Memory.read, hk, if_false]
    exact Memory.read_below hm.2.2.2 (by omega)

/-- A cell outside the 256 is never listed. -/
theorem Memory.read_above {i : Nat} (hi : 256 ≤ i) :
    ∀ {lo : Nat} {m : Memory}, Memory.wfFrom lo m = true → Memory.read m i = Memory.unlisted
  | _, [], _ => rfl
  | lo, (k, v) :: m, hm => by
    rw [Memory.wfFrom_cons] at hm
    have hk : k ≠ i := by omega
    simp only [Memory.read, hk, if_false]
    exact Memory.read_above hi hm.2.2.2

theorem Memory.write_wfFrom {i : Nat} {v : Word} (hi : i < 256) :
    ∀ {lo : Nat} {m : Memory}, lo ≤ i → Memory.wfFrom lo m = true →
      Memory.wfFrom lo (Memory.write m i v) = true
  | lo, [], hlo, _ => by
    unfold Memory.write
    split
    · rfl
    · next hv => exact (Memory.wfFrom_cons ..).mpr ⟨hlo, hi, hv, rfl⟩
  | lo, (k, u) :: m, hlo, hm => by
    have h := (Memory.wfFrom_cons ..).mp hm
    unfold Memory.write
    split
    · next hik =>
      split
      · exact hm
      · next hv =>
        exact (Memory.wfFrom_cons ..).mpr
          ⟨hlo, hi, hv, (Memory.wfFrom_cons ..).mpr ⟨by omega, h.2⟩⟩
    · split
      · next hik =>
        subst hik
        split
        · exact Memory.wfFrom_mono (by omega) h.2.2.2
        · next hv => exact (Memory.wfFrom_cons ..).mpr ⟨hlo, hi, hv, h.2.2.2⟩
      · exact (Memory.wfFrom_cons ..).mpr
          ⟨h.1, h.2.1, h.2.2.1, Memory.write_wfFrom hi (by omega) h.2.2.2⟩

/-- A write to one of the 256 cells keeps the canonical form. -/
theorem Memory.write_wf {m : Memory} {i : Nat} (v : Word) (hm : m.wf = true) (hi : i < 256) :
    (m.write i v).wf = true :=
  Memory.write_wfFrom hi (Nat.zero_le i) hm

/-- A write leaves every other cell alone, whatever the list (R42). -/
theorem Memory.read_write_of_ne {i j : Nat} (v : Word) (h : j ≠ i) :
    ∀ m : Memory, (Memory.write m i v).read j = Memory.read m j
  | [] => by
    unfold Memory.write
    split <;> simp [Memory.read, Ne.symm h]
  | (k, u) :: m => by
    unfold Memory.write
    split
    · split <;> simp [Memory.read, Ne.symm h]
    · split
      · next hik => subst hik; split <;> simp [Memory.read, Ne.symm h]
      · simp only [Memory.read, Memory.read_write_of_ne v h m]

theorem Memory.read_write_self_from {i : Nat} (v : Word) :
    ∀ {lo : Nat} {m : Memory}, Memory.wfFrom lo m = true → (Memory.write m i v).read i = v
  | _, [], _ => by
    unfold Memory.write
    split <;> simp_all [Memory.read]
  | lo, (k, u) :: m, hm => by
    have h := (Memory.wfFrom_cons ..).mp hm
    unfold Memory.write
    split
    · next hik =>
      split
      · next hv =>
        rw [hv]
        exact Memory.read_below ((Memory.wfFrom_cons (i + 1) ..).mpr ⟨hik, h.2⟩) (Nat.lt_succ_self i)
      · simp [Memory.read]
    · split
      · next hik =>
        subst hik
        split
        · next hv => rw [hv]; exact Memory.read_below h.2.2.2 (Nat.lt_succ_self i)
        · simp [Memory.read]
      · next hne =>
        have hk : k ≠ i := fun e => hne e.symm
        simp only [Memory.read, hk, if_false]
        exact Memory.read_write_self_from v h.2.2.2

/-- A read after a write to the same cell gives the value written (R47). -/
theorem Memory.read_write_self {m : Memory} (i : Nat) (v : Word) (hm : m.wf = true) :
    (m.write i v).read i = v :=
  Memory.read_write_self_from v hm

/-- The memory of the reset state has the canonical form. -/
theorem reset_mem_wf : State.reset.mem.wf = true := rfl

/-- The memory of a launch has the canonical form (R31). -/
theorem launchMemFrom_wf : ∀ (vs : List Word) (i : Nat), i + vs.length ≤ 256 →
    (launchMemFrom i vs).wf = true
  | [], _, _ => rfl
  | v :: vs, i, h => by
    simp only [List.length_cons] at h
    exact Memory.write_wf v (launchMemFrom_wf vs (i + 1) (by omega)) (by omega)

/-! ## The access primitives -/

/-- `Int.fdiv` by 4 is the rounded-down quotient of Lean's `/`, which `omega` knows. -/
theorem cellIndex_eq (ea : Int) : cellIndex ea = ea / 4 :=
  Int.fdiv_eq_ediv_of_nonneg ea (by decide)

theorem addrOk_iff (idx : Int) : addrOk idx = true ↔ 0 ≤ idx ∧ idx < 256 := by
  simp only [addrOk, Bool.and_eq_true, decide_eq_true_eq]
  simp only [Config.memWords, Nat.cast_ofNat]

theorem addrOk_eq_false_iff (idx : Int) : addrOk idx = false ↔ idx < 0 ∨ 255 < idx := by
  rw [← Bool.not_eq_true, addrOk_iff]; omega

/-- All that `MemRead` answers (R41). -/
theorem memRead_cases (m : Memory) (ea : Int) :
    (addrOk (cellIndex ea) = true ∧ memRead m ea = .ok (m.read (cellIndex ea).toNat)) ∨
    (addrOk (cellIndex ea) = false ∧ memRead m ea = .error (cellIndex ea)) := by
  cases h : addrOk (cellIndex ea) <;> simp [memRead, h]

/-- All that `MemWrite` answers (R42). -/
theorem memWrite_cases (m : Memory) (ea : Int) (v : Word) :
    (addrOk (cellIndex ea) = true ∧ memWrite m ea v = .ok (m.write (cellIndex ea).toNat v)) ∨
    (addrOk (cellIndex ea) = false ∧ memWrite m ea v = .error (cellIndex ea)) := by
  cases h : addrOk (cellIndex ea) <;> simp [memWrite, h]

/-- A `MemWrite` that answers a memory keeps the canonical form. -/
theorem memWrite_wf {m m' : Memory} {ea : Int} {v : Word} (hm : m.wf = true)
    (h : memWrite m ea v = .ok m') : m'.wf = true := by
  obtain ⟨hok, e⟩ | ⟨-, e⟩ := memWrite_cases m ea v
  · have hr := (addrOk_iff _).mp hok
    rw [e] at h
    cases h
    exact Memory.write_wf v hm (by omega)
  · rw [e] at h; cases h

end Sys2Proof.Machine
end

