-- ==== Sys2Proof/Laws/Exec.lean ====
section
/-! SUPPORT. Said once: all that an instruction can answer, and all that a step can answer. Proofs about every
instruction or every step cite these instead of unfolding `exec` or `step`. -/

namespace Sys2Proof.Machine

/-! ## Loads and stores -/

theorem execLw_inRange {rt rs : Reg} {imm : BitVec 16} {s : State}
    (h : addrOk (cellIndex (s.ea rs imm)) = true) :
    execLw rt rs imm s = .next (complete (.lw rt rs imm) (some (s.cell rs imm)) .sequential
      (s.setReg rt (s.mem.read (s.cell rs imm)))) := by
  simp [execLw, memRead, h, State.cell]

theorem execLw_outOfRange {rt rs : Reg} {imm : BitVec 16} {s : State}
    (h : addrOk (cellIndex (s.ea rs imm)) = false) :
    execLw rt rs imm s = .next (takeCondition (.invalidAddress (cellIndex (s.ea rs imm))) s) := by
  simp [execLw, memRead, h]

theorem execSw_inRange {rt rs : Reg} {imm : BitVec 16} {s : State}
    (h : addrOk (cellIndex (s.ea rs imm)) = true) :
    execSw rt rs imm s = .next (complete (.sw rt rs imm) (some (s.cell rs imm)) .sequential
      { s with mem := s.mem.write (s.cell rs imm) (s.reg rt) }) := by
  simp [execSw, memWrite, h, State.cell]

theorem execSw_outOfRange {rt rs : Reg} {imm : BitVec 16} {s : State}
    (h : addrOk (cellIndex (s.ea rs imm)) = false) :
    execSw rt rs imm s = .next (takeCondition (.invalidAddress (cellIndex (s.ea rs imm))) s) := by
  simp [execSw, memWrite, h]

/-! ## Any instruction -/

/-- The destination and the result of a register instruction (R111 to R114, R121, R122). -/
def resultOf (s : State) : Instr → Option (Reg × Word)
  | .sll rd rt shamt _ => some (rd, shiftLeft (s.reg rt) shamt)
  | .srl rd rt shamt _ => some (rd, shiftRight (s.reg rt) shamt)
  | .add rd rs rt _ => some (rd, aluAdd (s.reg rs) (s.reg rt))
  | .sub rd rs rt _ => some (rd, aluSub (s.reg rs) (s.reg rt))
  | .and rd rs rt _ => some (rd, aluAnd (s.reg rs) (s.reg rt))
  | .or rd rs rt _ => some (rd, aluOr (s.reg rs) (s.reg rt))
  | .j _ => none
  | .beq .. => none
  | .lw .. => none
  | .sw .. => none

/-- All that a completed or faulted instruction can be: the register instructions, `lw` and `sw` in range, a
transfer, or an access out of range. -/
inductive ExecCase (s : State) : Instr → State → Prop where
  | result (i : Instr) (rd : Reg) (v : Word) : resultOf s i = some (rd, v) → ExecCase s i (writeResult i rd v s)
  | load (rt rs : Reg) (imm : BitVec 16) : addrOk (cellIndex (s.ea rs imm)) = true →
      ExecCase s (.lw rt rs imm) (complete (.lw rt rs imm) (some (s.cell rs imm)) .sequential
        (s.setReg rt (s.mem.read (s.cell rs imm))))
  | store (rt rs : Reg) (imm : BitVec 16) : addrOk (cellIndex (s.ea rs imm)) = true →
      ExecCase s (.sw rt rs imm) (complete (.sw rt rs imm) (some (s.cell rs imm)) .sequential
        { s with mem := s.mem.write (s.cell rs imm) (s.reg rt) })
  | loadFault (rt rs : Reg) (imm : BitVec 16) : addrOk (cellIndex (s.ea rs imm)) = false →
      ExecCase s (.lw rt rs imm) (takeCondition (.invalidAddress (cellIndex (s.ea rs imm))) s)
  | storeFault (rt rs : Reg) (imm : BitVec 16) : addrOk (cellIndex (s.ea rs imm)) = false →
      ExecCase s (.sw rt rs imm) (takeCondition (.invalidAddress (cellIndex (s.ea rs imm))) s)
  | jump (a : BitVec 26) :
      ExecCase s (.j a) (complete (.j a) none (.absoluteJump (jumpAmount a)) s)
  | branch (rs rt : Reg) (imm : BitVec 16) :
      ExecCase s (.beq rs rt imm)
        (complete (.beq rs rt imm) none (branchDirective (s.reg rs) (s.reg rt) imm) s)

theorem exec_spec (i : Instr) (s : State) : ∃ t, exec i s = .next t ∧ ExecCase s i t := by
  cases i with
  | sll rd rt sh ig => exact ⟨_, rfl, .result _ _ _ rfl⟩
  | srl rd rt sh ig => exact ⟨_, rfl, .result _ _ _ rfl⟩
  | add rd rs rt ig => exact ⟨_, rfl, .result _ _ _ rfl⟩
  | sub rd rs rt ig => exact ⟨_, rfl, .result _ _ _ rfl⟩
  | and rd rs rt ig => exact ⟨_, rfl, .result _ _ _ rfl⟩
  | or rd rs rt ig => exact ⟨_, rfl, .result _ _ _ rfl⟩
  | j a => exact ⟨_, rfl, .jump a⟩
  | beq rs rt imm => exact ⟨_, rfl, .branch rs rt imm⟩
  | lw rt rs imm =>
    cases h : addrOk (cellIndex (s.ea rs imm)) with
    | true => exact ⟨_, execLw_inRange h, .load rt rs imm h⟩
    | false => exact ⟨_, execLw_outOfRange h, .loadFault rt rs imm h⟩
  | sw rt rs imm =>
    cases h : addrOk (cellIndex (s.ea rs imm)) with
    | true => exact ⟨_, execSw_inRange h, .store rt rs imm h⟩
    | false => exact ⟨_, execSw_outOfRange h, .storeFault rt rs imm h⟩

theorem exec_cases {i : Instr} {s t : State} (h : exec i s = .next t) : ExecCase s i t := by
  obtain ⟨u, hu, hc⟩ := exec_spec i s
  rw [hu] at h
  cases h
  exact hc

/-! ## Fetch -/

theorem fetch_pastEnd {prog : List Word} {pc : Int} (h : (prog.length : Int) ≤ pc) :
    fetch prog pc = .pastEnd := by
  simp [fetch, h]

theorem fetch_negative {prog : List Word} {pc : Int} (h : pc < 0) : fetch prog pc = .negative := by
  have h' : ¬ (prog.length : Int) ≤ pc := by omega
  simp [fetch, h, h']

/-- A fetch gives a word exactly at a slot of the program, and it is that slot's word (R91). -/
theorem fetch_word_iff {prog : List Word} {pc : Int} {w : Word} :
    fetch prog pc = .word w ↔ 0 ≤ pc ∧ pc < prog.length ∧ prog[pc.toNat]? = some w := by
  unfold fetch
  split
  · simp; omega
  · split
    · simp; omega
    · next h1 h2 =>
      have hlt : pc.toNat < prog.length := by omega
      rw [List.getElem?_eq_getElem hlt]
      simp only [Fetched.word.injEq, Option.some.injEq]
      exact ⟨fun h => ⟨by omega, by omega, h⟩, fun h => h.2.2⟩

theorem fetch_pastEnd_iff {prog : List Word} {pc : Int} :
    fetch prog pc = .pastEnd ↔ (prog.length : Int) ≤ pc := by
  refine ⟨fun h => ?_, fetch_pastEnd⟩
  by_contra hlt
  by_cases hneg : pc < 0
  · rw [fetch_negative hneg] at h; cases h
  · have hw := fetch_word_iff.mpr ⟨by omega, by omega,
      List.getElem?_eq_getElem (l := prog) (i := pc.toNat) (by omega)⟩
    rw [hw] at h; cases h

theorem fetch_negative_iff {prog : List Word} {pc : Int} :
    fetch prog pc = .negative ↔ pc < 0 := by
  refine ⟨fun h => ?_, fetch_negative⟩
  by_contra hneg
  by_cases hend : (prog.length : Int) ≤ pc
  · rw [fetch_pastEnd hend] at h; cases h
  · have hw := fetch_word_iff.mpr ⟨by omega, by omega,
      List.getElem?_eq_getElem (l := prog) (i := pc.toNat) (by omega)⟩
    rw [hw] at h; cases h

/-! ## Any step -/

/-- All that a step can do. -/
inductive StepCase (s : State) : State → Prop where
  | ended : s.runState ≠ .running → StepCase s s
  | atPause : s.runState = .running → s.awaitsHost = true → StepCase s s.answerPause
  | halts : s.Ready → (s.prog.length : Int) ≤ s.pc → StepCase s s.halt
  | badPC : s.Ready → s.pc < 0 → StepCase s (takeCondition (.invalidPC s.pc) s)
  | illegal (w : Word) (e : Illegal) : s.Ready → fetch s.prog s.pc = .word w → decode w = .error e →
      StepCase s (takeCondition (.illegalInstruction w) s).pauseIfStepping
  | instr (w : Word) (i : Instr) (u : State) : s.Ready → fetch s.prog s.pc = .word w →
      decode w = .ok i → exec i s = .next u → StepCase s u.pauseIfStepping

theorem step_terminal {s : State} (h : s.runState ≠ .running) : step s = .next s := by
  unfold step
  split
  · next e => exact absurd e h
  all_goals rfl

theorem step_atPause {s : State} (h : s.runState = .running) (ha : s.awaitsHost = true) :
    step s = .next s.answerPause := by
  simp [step, h, ha]

theorem step_ready {s : State} (h : s.Ready) : step s = stepSlot s := by
  simp [step, h.1, h.2]

theorem step_spec (s : State) : ∃ t, step s = .next t ∧ StepCase s t := by
  by_cases hr : s.runState = .running
  · cases ha : s.awaitsHost with
    | true => exact ⟨_, step_atPause hr ha, .atPause hr ha⟩
    | false =>
      rw [step_ready ⟨hr, ha⟩]
      unfold stepSlot
      cases hf : fetch s.prog s.pc with
      | pastEnd => exact ⟨_, rfl, .halts ⟨hr, ha⟩ (fetch_pastEnd_iff.mp hf)⟩
      | negative => exact ⟨_, rfl, .badPC ⟨hr, ha⟩ (fetch_negative_iff.mp hf)⟩
      | word w =>
        cases hd : decode w with
        | error e => exact ⟨_, by simp [hd], .illegal w e ⟨hr, ha⟩ hf hd⟩
        | ok i =>
          obtain ⟨u, hu, -⟩ := exec_spec i s
          exact ⟨_, by simp [hd, hu], .instr w i u ⟨hr, ha⟩ hf hd hu⟩
  · exact ⟨s, step_terminal hr, .ended hr⟩

theorem step_cases {s t : State} (h : step s = .next t) : StepCase s t := by
  obtain ⟨u, hu, hc⟩ := step_spec s
  rw [hu] at h
  cases h
  exact hc

/-! ## Runs -/

theorem run_succ (M : Host.Core) {s u : M.State} (h : M.step s = .next u) (k : Nat) :
    M.run (k + 1) s = M.run k u := by
  simp [Host.Core.run, h]

/-- Packaged once: what holds of `s` and is kept by every step holds of every state reached from `s`. -/
theorem run_induction {P : State → Prop} (keep : ∀ s t, P s → step s = .next t → P t) :
    ∀ (k : Nat) {s t : State}, P s → Sys2Proof.core.run k s = .next t → P t
  | 0, s, t, hs, h => by
    simp only [Host.Core.run] at h
    cases h
    exact hs
  | k + 1, s, t, hs, h => by
    obtain ⟨u, hu, -⟩ := step_spec s
    rw [run_succ Sys2Proof.core (s := s) (u := u) hu k] at h
    exact run_induction keep k (keep s u hs hu) h

end Sys2Proof.Machine
end

