-- ==== Sys2Proof/Laws/PerInstr.lean ====
section
/-! SUPPORT. Statements about every instruction as syntax, one lemma per constructor: the word of an instruction
matches its row of the opcode map (R71). -/

namespace Sys2Proof.Laws.RowMatch

/-- The encoded word has the bits its row's mask keeps as the row's match column says (R71). -/
def Statement (i : Instr) : Prop := i.op.matchesWord (encode i) = true

/-- A word whose opcode and funct are those of an R-type row matches the row. -/
theorem of_opcode_funct {o : Op} {w : Word} (hm : o.mask = 0xFC00003F)
    (h : ((extract w).opcode.setWidth 32 <<< 26) ||| (extract w).funct.setWidth 32 = o.pattern) :
    o.matchesWord w = true := by
  rw [Op.matchesWord, hm, and_mask_opcode_funct, h]
  exact beq_self_eq_true _

/-- A word whose opcode is that of an I-type or J-type row matches the row. -/
theorem of_opcode {o : Op} {w : Word} (hm : o.mask = 0xFC000000)
    (h : (extract w).opcode.setWidth 32 <<< 26 = o.pattern) : o.matchesWord w = true := by
  rw [Op.matchesWord, hm, and_mask_opcode, h]
  exact beq_self_eq_true _

theorem sll (rd rt : Reg) (shamt rsIgn : BitVec 5) : Statement (.sll rd rt shamt rsIgn) :=
  of_opcode_funct rfl (by simp only [encode, extract_rWord_opcode, extract_rWord_funct]; rfl)

theorem srl (rd rt : Reg) (shamt rsIgn : BitVec 5) : Statement (.srl rd rt shamt rsIgn) :=
  of_opcode_funct rfl (by simp only [encode, extract_rWord_opcode, extract_rWord_funct]; rfl)

theorem add (rd rs rt : Reg) (shamtIgn : BitVec 5) : Statement (.add rd rs rt shamtIgn) :=
  of_opcode_funct rfl (by simp only [encode, extract_rWord_opcode, extract_rWord_funct]; rfl)

theorem sub (rd rs rt : Reg) (shamtIgn : BitVec 5) : Statement (.sub rd rs rt shamtIgn) :=
  of_opcode_funct rfl (by simp only [encode, extract_rWord_opcode, extract_rWord_funct]; rfl)

theorem and (rd rs rt : Reg) (shamtIgn : BitVec 5) : Statement (.and rd rs rt shamtIgn) :=
  of_opcode_funct rfl (by simp only [encode, extract_rWord_opcode, extract_rWord_funct]; rfl)

theorem or (rd rs rt : Reg) (shamtIgn : BitVec 5) : Statement (.or rd rs rt shamtIgn) :=
  of_opcode_funct rfl (by simp only [encode, extract_rWord_opcode, extract_rWord_funct]; rfl)

theorem j (addr26 : BitVec 26) : Statement (.j addr26) :=
  of_opcode rfl (by simp only [encode, extract_jWord_opcode]; rfl)

theorem beq (rs rt : Reg) (imm : BitVec 16) : Statement (.beq rs rt imm) :=
  of_opcode rfl (by simp only [encode, extract_iWord_opcode]; rfl)

theorem lw (rt rs : Reg) (imm : BitVec 16) : Statement (.lw rt rs imm) :=
  of_opcode rfl (by simp only [encode, extract_iWord_opcode]; rfl)

theorem sw (rt rs : Reg) (imm : BitVec 16) : Statement (.sw rt rs imm) :=
  of_opcode rfl (by simp only [encode, extract_iWord_opcode]; rfl)

end Sys2Proof.Laws.RowMatch
end

