-- ==== Sys2Proof/Tests/Slice0.lean ====
section
/-! SUPPORT. The model's own tests: expected results from 95_test_vectors.md and the rules' own examples, never from the
model; and, for each obligation with hypotheses, a witness that meets them together. -/

open Sys2Proof Sys2Proof.Machine Sys2Proof.Slice0

namespace Sys2Proof.Tests

/-! ## Helpers -/

def regsOf (rs : List (Reg × Word)) : Vector Word 32 :=
  rs.foldl (fun x r => x.set r.1.val r.2) (Vector.replicate 32 0)

/-- A running machine at slot `p` of a program that holds `w` there, zero words before it and one after it. -/
def small (p : Nat) (w : Word) (rs : List (Reg × Word)) (m : Memory := []) : State :=
  { State.reset with x := regsOf rs, mem := m, pc := p, prog := List.replicate p 0 ++ [w, 0] }

def after : Host.Outcome State Fault Refusal → Option State
  | .next t => some t
  | _ => none

/-- A register and the pc after one step. -/
def regPc (s : State) (r : Reg) : Option (Word × Int) := (after (step s)).map fun t => (t.reg r, t.pc)

/-- The pc after one step. -/
def pcOf (s : State) : Option Int := (after (step s)).map (·.pc)

/-! ## Well-formedness: one ill-formed term for each check -/

theorem test_fields_imm_refused : (⟨0, 0, 0, 1, 0, 0, 0, 0⟩ : Fields).immOverlaps = false := by decide
theorem test_fields_addr_refused : (⟨0, 1, 0, 0, 0, 0, 0, 0⟩ : Fields).addrOverlaps = false := by decide
theorem test_fields_refused : (⟨0, 1, 0, 1, 0, 0, 0, 0⟩ : Fields).wf = false := by decide
theorem test_fields_of_a_word_accepted : (extract 0x89ABCDEF).wf = true := by decide
theorem test_launch_regs_refused : ({ regInit := List.replicate 33 0 } : Config.Launch).regsFit = false := by decide
theorem test_launch_mem_refused : ({ memInit := List.replicate 257 0 } : Config.Launch).memFits = false := by
  simp only [Config.Launch.memFits, List.length_replicate, decide_eq_false_iff_not]
  decide
theorem test_launch_prog_refused :
    ({ prog := List.replicate (2 ^ 30 + 1) 0 } : Config.Launch).progFits = false := by
  simp only [Config.Launch.progFits, List.length_replicate, decide_eq_false_iff_not]
  decide
theorem test_launch_refused : ({ regInit := List.replicate 33 0 } : Config.Launch).wf = false := by decide

/-! ## Decoding: every constructor by a word written out field by field (R61 to R63, R69, R70) -/

-- opcode rs rt rd shamt funct
theorem test_decode_sll : decode 0b000000_00111_00010_00011_00100_000000 = .ok (.sll 3 2 4 7) := by decide
theorem test_decode_srl : decode 0b000000_00000_00010_00011_11111_000010 = .ok (.srl 3 2 31 0) := by decide
theorem test_decode_add : decode 0b000000_00001_00010_00011_00101_100000 = .ok (.add 3 1 2 5) := by decide
theorem test_decode_sub : decode 0b000000_00001_00010_00011_00000_100010 = .ok (.sub 3 1 2 0) := by decide
theorem test_decode_and : decode 0b000000_00001_00010_00011_00000_100100 = .ok (.and 3 1 2 0) := by decide
theorem test_decode_or : decode 0b000000_00001_00010_00011_00000_100101 = .ok (.or 3 1 2 0) := by decide
-- opcode addr26
theorem test_decode_j : decode 0b000010_00000000000000000000000001 = .ok (.j 1) := by decide
-- opcode rs rt imm
theorem test_decode_beq : decode 0b000100_00001_00010_1111111111111111 = .ok (.beq 1 2 0xFFFF) := by decide
theorem test_decode_lw : decode 0b100011_00001_00011_0000000000010000 = .ok (.lw 3 1 16) := by decide
theorem test_decode_sw : decode 0b101011_00001_00011_0000000000010000 = .ok (.sw 3 1 16) := by decide
-- 95_test_vectors.md sections 2 and 7
theorem test_extract_vector : extract 0x89ABCDEF = ⟨34, 13, 11, 25, 23, 47, 52719, 28036591⟩ := by decide
theorem test_decode_illegal_opcode : decode 0x89ABCDEF = .error (.opcode 34) := by decide
theorem test_decode_illegal_funct : decode 0x0000000C = .error (.funct 12) := by decide
theorem test_encode_scenario_a : encode (.add 3 1 2 0) = 0x00221820 := by decide
theorem test_encode_sw : encode (.sw 9 0 29) = 0xAC09001D := by decide
theorem test_table_word : decodeTableWord 32 0xAC020400 = some (.sw 2 0 1024) := by decide

/-! ## Instructions: 95_test_vectors.md sections 3 to 6 -/

theorem test_add_wraps : regPc (small 10 0x00221820 [(1, 0x7FFFFFFF), (2, 1)]) 3 = some (0x80000000, 11) := by decide
theorem test_add_doubles_its_own_source : regPc (small 0 0x00210820 [(1, 3)]) 1 = some (6, 1) := by decide
theorem test_sub_negative : regPc (small 0 0x00221822 [(1, 5), (2, 7)]) 3 = some (0xFFFFFFFE, 1) := by decide
theorem test_sub_of_most_negative :
    regPc (small 0 0x00221822 [(1, 0), (2, 0x80000000)]) 3 = some (0x80000000, 1) := by decide
theorem test_and : regPc (small 0 0x00221824 [(1, 0xF0F0F0F0), (2, 0x0FF00FF0)]) 3 = some (0x00F000F0, 1) := by decide
theorem test_or : regPc (small 0 0x00221825 [(1, 0xF0F0F0F0), (2, 0x0FF00FF0)]) 3 = some (0xFFF0FFF0, 1) := by decide
theorem test_add_writes_x0 : regPc (small 0 0x00220020 [(1, 5), (2, 7)]) 0 = some (12, 1) := by decide
theorem test_sll_discards : regPc (small 0 0x00021900 [(2, 0x89ABCDEF)]) 3 = some (0x9ABCDEF0, 1) := by decide
theorem test_sll_ignores_rs : regPc (small 0 0x00E21900 [(2, 0xFFFFFFFF), (7, 123)]) 3 = some (0xFFFFFFF0, 1) := by decide
theorem test_srl_is_logical : regPc (small 0 0x00021902 [(2, 0xFFFFFFFF)]) 3 = some (0x0FFFFFFF, 1) := by decide
theorem test_srl_zero_keeps_sign : regPc (small 0 0x00021802 [(2, 0x89ABCDEF)]) 3 = some (0x89ABCDEF, 1) := by decide
theorem test_lw_unsigned_displacement :
    regPc (small 0 0x8C23FFFC [(1, 0xFFFF0004)] [(0, 77)]) 3 = some (77, 1) := by decide
theorem test_lw_no_wrap : (after (step (small 2 0x8C23FFFF [(1, 0x7FFFFFFF)]))).map (fun t => (t.runState, t.pc)) =
    some (.faulted (.invalidAddress 536887295), 2) := by decide
theorem test_sw_last_cell : (after (step (small 0 0xAC0203FF [(2, 9)]))).map (·.mem) = some [(255, 9)] := by decide
theorem test_sw_out_of_range : (after (step (small 0 0xAC020400 [(2, 9)] [(1, 5)]))).map
    (fun t => (t.mem, t.runState, t.pc)) = some ([(1, 5)], .faulted (.invalidAddress 256), 0) := by decide
theorem test_beq_taken_backwards : pcOf (small 10 0x1022FFFF [(1, 9), (2, 9)]) = some 6 := by decide
theorem test_beq_not_taken : pcOf (small 10 0x10220003 [(1, 9), (2, 8)]) = some 11 := by decide
theorem test_j_adds : pcOf (small 10 0x08000001 []) = some 14 := by decide
theorem test_j_largest : pcOf (small 2 0x0BFFFFFF []) = some 268435454 := by decide

/-! ## The step: sections 1 and 7, and the trace of R153 to R156 -/

theorem test_illegal_scenario_d : (after (step (small 3 0xFC000000 []))).map
    (fun t => (t.pc, t.runState, t.trace, t.illegalStrobe)) =
      some (4, .running, none, some ⟨0xFC000000, 3⟩) := by decide
theorem test_empty_program_halts : (after (step State.reset)).map (·.runState) = some .halted := by decide
theorem test_negative_fetch : (after (step { small 1 0 [] with pc := -3 })).map (fun t => (t.runState, t.pc)) =
    some (.faulted (.invalidPC (-3)), -3) := by decide
theorem test_trace_of_lw : (after (step (small 0 0x8C210000 [(1, 8)] [(2, 40)]))).map (·.trace) =
    some (some ⟨0x8C210000, .iType, .lw, some ⟨[(1, 40)], [(2, 40)]⟩⟩) := by decide
theorem test_trace_of_j : (after (step (small 0 0x08000001 []))).map (·.trace) =
    some (some ⟨0x08000001, .jType, .j, none⟩) := by decide
theorem test_single_step_quit : (after (step { small 0 0 [] with
    mode := .singleStep, paused := true, answers := [.quit] })).map (·.runState) = some .userQuit := by decide
theorem test_launch_default_fill : (after (State.launch { regInit := [1, 0xFFFFFFFC], memInit := [0, 5] })).map
    (fun s => (s.reg 0, (s.reg 1).toInt, s.reg 2, s.mem)) = some (1, -4, 0, [(1, 5)]) := by decide
theorem test_fetch_word_runs_first : regPc (State.reset.withFetchWord 32 0x00221820) 3 = some (0, 1) := by decide
theorem test_memory_write_of_zero_unlists : Memory.write [(4, 7), (5, 8)] 4 0 = [(5, 8)] := by decide

/-! ## Witnesses: states and operands that meet an obligation's hypotheses together -/

theorem witness_EncodeOfDecodeIsTheWord : decode 0x00E21900 = .ok (.sll 3 2 4 7) := by decide

theorem witness_IgnoredFieldsDoNotMatter : (Instr.add 3 1 2 0, Instr.add 3 1 2 31) ∈
    [(Instr.add 3 1 2 0, Instr.add 3 1 2 31)] := by decide

theorem witness_launch : State.launch { prog := [0x08000000] } = .next (State.launched { prog := [0x08000000] }) := by
  rw [State.launch, if_pos (by decide)]

theorem witness_LaunchStartsRunningAtSlotZero : ∃ (l : Config.Launch) (s : State), State.launch l = .next s ∧
    l.prog = 0x08000000 :: [] := ⟨{ prog := [0x08000000] }, _, witness_launch, rfl⟩

theorem witness_LaunchFillsRegistersAndCells : ∃ l : Config.Launch,
    l.regInit.length = 32 ∧ l.memInit.length = 256 ∧ l.prog.length ≤ 2 ^ 30 :=
  ⟨{ regInit := List.replicate 32 7, memInit := List.replicate 256 9 },
    List.length_replicate, List.length_replicate, by decide⟩

theorem witness_EveryLaunchMeetsTheInvariant : ∃ (l : Config.Launch) (s : State), State.launch l = .next s :=
  ⟨_, _, witness_launch⟩

theorem witness_SrlShiftsDownWithZeroFill : 1 ≤ (31 : BitVec 5).toNat ∧ (0 : BitVec 5).toNat = 0 := by decide

/-- Ready at a slot that holds `w`. -/
theorem small_ready (p : Nat) (w : Word) (rs : List (Reg × Word)) (m : Memory) : (small p w rs m).Ready := ⟨rfl, rfl⟩

theorem witness_AllZeroWordChangesNoRegisterOrCell : (small 0 0x00000000 [(0, 77)]).Ready ∧
    fetch (small 0 0x00000000 [(0, 77)]).prog (small 0 0x00000000 [(0, 77)]).pc = .word 0x00000000 := by decide

/-- The two ends of the range, and an unaligned address of the last cell. -/
theorem witness_LoadInRangeReadsTheCell :
    (((small 0 0 [(1, 1020)]).reg 1).toInt + (3 : BitVec 16).toNat = 1023 ∧ (0 : Int) ≤ 1023 ∧ (1023 : Int) ≤ 1023) ∧
    (((small 0 0 [(1, 0xFFFF0004)]).reg 1).toInt + (0xFFFC : BitVec 16).toNat = 0 ∧ (0 : Int) ≤ 0 ∧ (0 : Int) ≤ 1023) := by
  decide

theorem witness_StoreInRangeReplacesTheCell : (small 0 0 [(1, 1020)] [(255, 4)]).mem.wf = true ∧
    ((small 0 0 [(1, 1020)] [(255, 4)]).reg 1).toInt + (3 : BitVec 16).toNat = 1023 ∧ (0 : Int) ≤ 1023 ∧
    (1023 : Int) ≤ 1023 ∧ ((small 0 0 []).reg 1).toInt + (0 : BitVec 16).toNat = 0 := by decide

theorem witness_AccessOutOfRangeStopsTheMachine :
    (((small 0 0 [(1, 0xFFFFFFFF)]).reg 1).toInt + (0 : BitVec 16).toNat = -1 ∧ ((-1 : Int) < 0 ∨ (1023 : Int) < -1)) ∧
    (((small 0 0 [(1, 1020)]).reg 1).toInt + (4 : BitVec 16).toNat = 1024 ∧ ((1024 : Int) < 0 ∨ (1023 : Int) < 1024)) ∧
    Instr.sw 3 1 4 ∈ [Instr.lw 3 1 4, Instr.sw 3 1 4] := by decide

/-- The stored-to base is in range, and a second address, unaligned and through another base, is in the same cell. -/
theorem witness_StoreThenLoadGivesTheValue : (small 0 0 [(1, 16), (3, 99), (5, 3)]).mem.wf = true ∧
    (0 : Int) ≤ ((small 0 0 [(1, 16), (3, 99), (5, 3)]).reg 1).toInt + (0 : BitVec 16).toNat ∧
    (((small 0 0 [(1, 16), (3, 99), (5, 3)]).reg 1).toInt + (0 : BitVec 16).toNat) / 4 ≤ 255 ∧
    (((small 0 0 [(1, 16), (3, 99), (5, 3)]).reg 5).toInt + (16 : BitVec 16).toNat) / 4 =
      (((small 0 0 [(1, 16), (3, 99), (5, 3)]).reg 1).toInt + (0 : BitVec 16).toNat) / 4 := by decide

theorem witness_EqualReadsMeanEqualMemories : Memory.wf [(0, 1), (255, 2)] = true ∧
    ∀ c, c < 256 → Memory.read [(0, 1), (255, 2)] c = Memory.read [(0, 1), (255, 2)] c :=
  ⟨by decide, fun _ _ => rfl⟩

/-- `j` in the last slot: the new pc is at the end. -/
theorem witness_JumpAddsFourTimesItsField : (small 0 0x08000001 []).Ready ∧
    ((small 0 0x08000001 []).prog.length : Int) ≤ (small 0 0x08000001 []).pc + (1 : BitVec 26).toNat * 4 := by decide

/-- Equal and unequal registers; a taken branch past the end; one to a negative slot. -/
theorem witness_BranchOnEqualMovesThePc :
    (small 0 0 [(1, 9), (2, 9)]).reg 1 = (small 0 0 [(1, 9), (2, 9)]).reg 2 ∧
    (small 0 0 [(1, 9), (2, 8)]).reg 1 ≠ (small 0 0 [(1, 9), (2, 8)]).reg 2 ∧ (small 1 0x10A5FFFF []).Ready ∧
    ((small 1 0x10A50001 []).prog.length : Int) ≤ (small 1 0x10A50001 []).pc + (1 : BitVec 16).toInt * 4 ∧
    (small 1 0x10A5FFFF []).pc + (0xFFFF : BitVec 16).toInt * 4 < 0 := by decide

theorem witness_RegisterInstructionFrame : destination (.lw 3 1 16) = some 3 ∧
    (∃ t, exec (.lw 3 1 16) (small 0 0 []) = .next t) ∧ ∃ t, exec (.add 0 1 2 0) (small 0 0 []) = .next t :=
  ⟨rfl, (exec_spec _ _).imp fun _ h => h.1, (exec_spec _ _).imp fun _ h => h.1⟩

/-- Both range clauses, at the ends of the range. -/
theorem witness_StoreFrame : (∃ t, exec (.sw 2 0 1023) (small 0 0 []) = .next t) ∧
    addrOk (cellIndex ((small 0 0 []).ea 0 1023)) = true ∧ addrOk (cellIndex ((small 0 0 []).ea 0 1024)) = false :=
  ⟨(exec_spec _ _).imp fun _ h => h.1, by decide, by decide⟩

theorem witness_TransferFrame : (Instr.beq 1 2 3).op = .beq ∧
    ∃ t, exec (.beq 1 2 3) (small 0 0 []) = .next t := ⟨rfl, (exec_spec _ _).imp fun _ h => h.1⟩

/-- A step that changes `x[0]`. -/
theorem witness_OnlyTheDestinationRegisterChanges :
    (after (step (small 0 0x00220020 [(1, 5), (2, 7)]))).map (·.reg 0) = some 12 ∧
    (small 0 0x00220020 [(1, 5), (2, 7)]).reg 0 = 0 := by decide

/-- A step that changes the last cell. -/
theorem witness_OnlyAStoreInRangeChangesMemory :
    (after (step (small 0 0xAC0203FF [(2, 9)]))).map (·.mem) = some [(255, 9)] ∧
    (small 0 0xAC0203FF [(2, 9)]).mem = [] := by decide

theorem witness_StepRunsTheDecodedInstruction : (small 10 0x00221820 []).runState = .running ∧
    (small 10 0x00221820 []).mode = .runAll ∧ 0 ≤ (small 10 0x00221820 []).pc ∧
    (small 10 0x00221820 []).prog[(small 10 0x00221820 []).pc.toNat]? = some 0x00221820 ∧
    decode 0x00221820 = .ok (.add 3 1 2 0) := by decide

/-- An illegal word in the last slot, in `Run_All` mode. -/
theorem witness_StepSkipsAnIllegalWord :
    let s : State := { State.reset with prog := [0xFC000000] }
    s.runState = .running ∧ s.mode = .runAll ∧ 0 ≤ s.pc ∧ s.prog[s.pc.toNat]? = some 0xFC000000 ∧
      decode 0xFC000000 = .error (.opcode 63) ∧ s.pc + 1 = s.prog.length := by decide

/-- The empty program, and a slot of a program. -/
theorem witness_StepHaltsExactlyPastTheEnd : State.reset.Ready ∧ (State.reset.prog.length : Int) ≤ State.reset.pc ∧
    (small 0 0 []).Ready ∧ ∃ t, step State.reset = .next t :=
  ⟨⟨rfl, rfl⟩, by decide, ⟨rfl, rfl⟩, (step_spec _).imp fun _ h => h.1⟩

theorem witness_StepFaultsExactlyOnANegativePc : State.Ready { small 0 0 [] with pc := -1 } ∧
    ∃ t, step { small 0 0 [] with pc := -1 } = .next t := ⟨⟨rfl, rfl⟩, (step_spec _).imp fun _ h => h.1⟩

/-- Just past the last cell, and just before the first. -/
theorem witness_InvalidAddressIsPrecise :
    (after (step (small 0 0x8C230004 [(1, 1020)]))).map (·.runState) = some (.faulted (.invalidAddress 256)) ∧
    (after (step (small 0 0x8C230000 [(1, 0xFFFFFFFF)]))).map (·.runState) =
      some (.faulted (.invalidAddress (-1))) := by decide

theorem witness_TerminalStatesNeverChange : (State.reset.halt).runState = .halted ∧
    (takeCondition (.invalidPC (-1)) State.reset).runState = .faulted (.invalidPC (-1)) := by decide

theorem witness_RunAllAlwaysTakesItsNextStep : (small 0 0 []).mode = .runAll ∧
    (small 0 0 []).runState = .running := by decide

theorem witness_PcMovesByOneOrAMultipleOfFour : (small 10 0x1022FFFF []).Ready ∧
    (after (step (small 10 0x1022FFFF []))).map (fun t => (t.pc, t.runState)) = some (6, .running) := by decide

theorem witness_OnlyATakenBranchMakesThePcNegative : 0 ≤ (small 1 0x10A5FFFF []).pc ∧
    pcOf (small 1 0x10A5FFFF []) = some (-3) := by decide

theorem reset_inv : State.reset.Inv := ⟨rfl, by decide, by decide, rfl, by decide⟩

/-- A state inside a run meets the invariant: memory listed, the pc at a slot. -/
theorem small_inv : (small 1 0x8C23FFFF [(1, 0x7FFFFFFF)] [(255, 1)]).Inv :=
  ⟨by decide, by decide, by decide, rfl, by decide⟩

theorem witness_StepKeepsTheInvariant : ∃ s t : State, s.Inv ∧ step s = .next t :=
  ⟨_, _, small_inv, (step_spec _).choose_spec.1⟩

theorem witness_EveryReachedStateMeetsTheInvariant : ∃ (l : Config.Launch) (s t : State),
    State.launch l = .next s ∧ Reaches s t := ⟨_, _, _, witness_launch, 0, rfl⟩

theorem witness_NoRunChangesProgramOrMode : ∃ s t : State, Reaches s t := ⟨State.reset, _, 0, rfl⟩

theorem witness_PcFitsA32BitRegister : ∃ s t : State, s.Inv ∧ step s = .next t :=
  ⟨_, _, reset_inv, (step_spec _).choose_spec.1⟩

/-- A `Single_Step` machine before its first slot, and the pause after it, unanswered. -/
theorem witness_SingleStepPausesAfterEachStep :
    let s : State := { small 0 0 [] with mode := .singleStep }
    s.mode = .singleStep ∧ s.Ready ∧
      (after (step s)).map (fun t => (t.runState, t.paused, t.answers)) = some (.running, true, []) := by decide

theorem witness_HostAnswersAtThePause (a : HostAnswer) :
    let s : State := { small 0 0 [] with mode := .singleStep, paused := true, answers := [a] }
    s.runState = .running ∧ s.mode = .singleStep ∧ s.paused = true ∧ s.answers = a :: [] := ⟨rfl, rfl, rfl, rfl⟩

theorem witness_RunAllIgnoresTheHostsAnswers : (small 0 0 []).mode = .runAll ∧
    ∃ t, step (small 0 0 []) = .next t := ⟨rfl, (step_spec _).imp fun _ h => h.1⟩

theorem witness_PortsDoNotFeedBack :
    SameButPorts (small 0 0 []) { small 0 0 [] with illegalStrobe := some ⟨0xFC000000, 3⟩ } ∧
    ∃ t, step (small 0 0 []) = .next t :=
  ⟨⟨rfl, rfl, rfl, rfl, rfl, rfl, rfl, rfl⟩, (step_spec _).imp fun _ h => h.1⟩

theorem witness_ModeDoesNotChangeWhatAStepComputes : (small 0 0 []).Ready ∧
    ∃ t, step (small 0 0 []) = .next t := ⟨⟨rfl, rfl⟩, (step_spec _).imp fun _ h => h.1⟩

theorem witness_TraceRecordIsOfTheFetchedWord : (small 0 0x08000001 []).Ready ∧
    ((after (step (small 0 0x08000001 []))).bind (·.trace)).map (·.word) = some 0x08000001 := by decide

theorem witness_TraceMapsListWhatTheInstructionTouched :
    Fetches (small 0 0x8C210000 [(1, 8)] [(2, 40)]) 0x8C210000 (.lw 1 1 0) ∧
    ((after (step (small 0 0x8C210000 [(1, 8)] [(2, 40)]))).bind (·.trace)).bind (·.maps) =
      some ⟨[(1, 40)], [(2, 40)]⟩ := ⟨⟨⟨rfl, rfl⟩, by decide, by decide⟩, by decide⟩

/-- Each of the three outcomes: a record, a strobe, an end. -/
theorem witness_EachStepRecordsStrobesOrEnds : (small 0 0x00000000 []).Ready ∧ (small 0 0xFC000000 []).Ready ∧
    State.reset.Ready ∧ ∃ t, step (small 0 0xFC000000 []) = .next t :=
  ⟨⟨rfl, rfl⟩, ⟨rfl, rfl⟩, ⟨rfl, rfl⟩, (step_spec _).imp fun _ h => h.1⟩

theorem witness_ReadBackOnlyAfterHalted : State.reset.halt.readBack = some State.reset.halt.dump := by
  simp [State.readBack]

/-- A cause of each kind, with the value it presents. -/
theorem test_fault_value : (takeCondition (.invalidAddress 256) State.reset).faultValue = some 256 ∧
    (takeCondition (.invalidPC (-1)) State.reset).faultValue = some (-1) ∧ State.reset.faultValue = none := by decide

theorem witness_BlocksComputeWhatTheStepDoes : ∃ (s : State) (w : Word), s.Inv ∧ s.Ready ∧
    fetch s.prog s.pc = .word w :=
  ⟨_, 0x8C23FFFF, small_inv, ⟨rfl, rfl⟩, by decide⟩

end Sys2Proof.Tests
end

section
/-! The data memory, read as a function: the canonical form is determined by the reads (log 1), and what the cells of
a launch read as (R31). -/

namespace Sys2Proof.Machine

/-- A cell that the first list holds and that reads alike in the second is not below the second's entries. -/
theorem Memory.lower_le_of_read_head {lo lo' k : Nat} {v : Word} {m m' : Memory}
    (h : Memory.wfFrom lo ((k, v) :: m) = true) (h' : Memory.wfFrom lo' m' = true)
    (e : Memory.read ((k, v) :: m) k = Memory.read m' k) : lo' ≤ k := by
  obtain ⟨-, -, hv, -⟩ := (Memory.wfFrom_cons ..).mp h
  by_contra hlt
  rw [Memory.read_below h' (Nat.lt_of_not_le hlt)] at e
  exact hv (by simpa [Memory.read] using e)

theorem Memory.eq_of_read_eq_from :
    ∀ {lo : Nat} {m m' : Memory}, Memory.wfFrom lo m = true → Memory.wfFrom lo m' = true →
      (∀ c, Memory.read m c = Memory.read m' c) → m = m'
  | _, [], [], _, _, _ => rfl
  | _, [], (k, _) :: _, _, h', e =>
    absurd (Memory.lower_le_of_read_head (lo' := k + 1) h' rfl (e k).symm) (by omega)
  | _, (k, _) :: _, [], h, _, e =>
    absurd (Memory.lower_le_of_read_head (lo' := k + 1) h rfl (e k)) (by omega)
  | _, (k, v) :: m, (k', v') :: m', h, h', e => by
    obtain ⟨-, hk⟩ := (Memory.wfFrom_cons ..).mp h
    obtain ⟨-, hk'⟩ := (Memory.wfFrom_cons ..).mp h'
    have hkk : k = k' := Nat.le_antisymm
      (Memory.lower_le_of_read_head h' ((Memory.wfFrom_cons ..).mpr ⟨le_rfl, hk⟩) (e k').symm)
      (Memory.lower_le_of_read_head h ((Memory.wfFrom_cons ..).mpr ⟨le_rfl, hk'⟩) (e k))
    subst hkk
    have hvv : v = v' := by simpa [Memory.read] using e k
    obtain ⟨-, -, hm⟩ := hk
    obtain ⟨-, -, hm'⟩ := hk'
    have tails : ∀ c, Memory.read m c = Memory.read m' c := fun c => by
      by_cases hc : k = c
      · rw [Memory.read_below hm (by omega), Memory.read_below hm' (by omega)]
      · simpa [Memory.read, hc] using e c
    rw [hvv, Memory.eq_of_read_eq_from hm hm' tails]

/-- Two canonical memories that read alike in the 256 cells read alike everywhere, so they are one list. -/
theorem Memory.eq_of_read_eq {m m' : Memory} (h : m.wf = true) (h' : m'.wf = true)
    (e : ∀ c, c < 256 → m.read c = m'.read c) : m = m' :=
  Memory.eq_of_read_eq_from h h' fun c => by
    by_cases hc : c < 256
    · exact e c hc
    · rw [Memory.read_above (Nat.le_of_not_lt hc) h, Memory.read_above (Nat.le_of_not_lt hc) h']

/-- Cell `i + j` of an image laid down from cell `i` on is line `j`, or zero where there is none (R31). -/
theorem launchMemFrom_read : ∀ (vs : List Word) (i j : Nat), i + vs.length ≤ 256 →
    (launchMemFrom i vs).read (i + j) = (vs[j]?).getD 0
  | [], _, _, _ => rfl
  | v :: vs, i, j, h => by
    simp only [List.length_cons] at h
    cases j with
    | zero => simp [launchMemFrom, Memory.read_write_self i v (launchMemFrom_wf vs (i + 1) (by omega))]
    | succ j =>
      have step : i + (j + 1) = i + 1 + j := by omega
      rw [launchMemFrom, Memory.read_write_of_ne v (by omega), step, launchMemFrom_read vs (i + 1) j (by omega)]
      simp

/-- Register `r` after a launch is line `r` of `REG_INIT`, or zero where there is none (R31). -/
theorem launched_reg (l : Config.Launch) (r : Reg) :
    (State.launched l).reg r = (l.regInit[r.val]?).getD 0 := by
  simp [State.reg, launchRegs, List.getD_eq_getElem?_getD]

theorem reset_reg (r : Reg) : State.reset.reg r = 0 := by
  simp [State.reg, State.reset]

end Sys2Proof.Machine
end

section
/-! Frames: what each instruction and each step leaves unchanged, read off `ExecCase` and `StepCase`. -/

namespace Sys2Proof.Machine

open Sys2Proof.Slice0

/-- A register instruction's result goes to its destination (R22). -/
theorem destination_of_resultOf {s : State} {i : Instr} {rd : Reg} {v : Word}
    (h : resultOf s i = some (rd, v)) : destination i = some rd := by
  cases i <;> simp_all [resultOf, destination]

section Exec

variable {i : Instr} {s t : State}

/-- No instruction changes a launch parameter, the pause or the host's answers. -/
theorem exec_keeps_launch_and_host (h : exec i s = .next t) :
    t.prog = s.prog ∧ t.mode = s.mode ∧ t.paused = s.paused ∧ t.answers = s.answers := by
  cases exec_cases h <;> simp

/-- A register that is not the destination is kept (R22). -/
theorem exec_reg_of_ne_destination {r : Reg} (h : exec i s = .next t) (hr : destination i ≠ some r) :
    t.reg r = s.reg r := by
  cases exec_cases h with
  | result _ rd v hres =>
    rw [destination_of_resultOf hres] at hr
    have hne : r ≠ rd := fun e => hr (congrArg some e.symm)
    simp [hne]
  | load rt rs imm =>
    have hne : r ≠ rt := fun e => hr (congrArg some e.symm)
    simp [hne]
  | store => rfl
  | loadFault => simp
  | storeFault => simp
  | jump => simp
  | branch => simp

/-- The data memory changes only by an `sw` in range, and then as R42 says. -/
theorem exec_mem (h : exec i s = .next t) :
    t.mem = s.mem ∨ ∃ rt rs imm, i = .sw rt rs imm ∧ addrOk (cellIndex (s.ea rs imm)) = true ∧
      t.mem = s.mem.write (s.cell rs imm) (s.reg rt) := by
  cases exec_cases h with
  | store rt rs imm hok => exact .inr ⟨rt, rs, imm, rfl, hok, rfl⟩
  | result | load | loadFault | storeFault | jump | branch => exact .inl (by simp)

/-- An instruction with a destination register changes no cell. -/
theorem exec_mem_of_destination {rd : Reg} (h : exec i s = .next t) (hd : destination i = some rd) :
    t.mem = s.mem := by
  obtain e | ⟨rt, rs, imm, rfl, -⟩ := exec_mem h
  · exact e
  · simp [destination] at hd

/-- The run state changes only by the InvalidAddress of an access out of range (R173). -/
theorem exec_runState (h : exec i s = .next t) :
    t.runState = s.runState ∨ ∃ rt rs imm, (i = .lw rt rs imm ∨ i = .sw rt rs imm) ∧
      addrOk (cellIndex (s.ea rs imm)) = false ∧
      t.runState = .faulted (.invalidAddress (cellIndex (s.ea rs imm))) := by
  cases exec_cases h with
  | loadFault rt rs imm hbad => exact .inr ⟨rt, rs, imm, .inl rfl, hbad, rfl⟩
  | storeFault rt rs imm hbad => exact .inr ⟨rt, rs, imm, .inr rfl, hbad, rfl⟩
  | result | load | store | jump | branch => exact .inl (by simp)

/-- `or q, r, r` copies register `r` into register `q`, whatever the two indices (R114). -/
theorem exec_or_self_copies (q r : Reg) (ig : BitVec 5) (s : State) :
    ∃ t, exec (.or q r r ig) s = .next t ∧ t.reg q = s.reg r :=
  ⟨_, rfl, by simp [aluOr]⟩

end Exec

section Step

variable {s t : State}

/-- No step changes a launch parameter (R29, R53, R158). -/
theorem step_keeps_launch (h : step s = .next t) : t.prog = s.prog ∧ t.mode = s.mode := by
  cases step_cases h with
  | instr w i u _ _ _ hu =>
    obtain ⟨hprog, hmode, -⟩ := exec_keeps_launch_and_host hu
    simp [hprog, hmode]
  | ended | atPause | halts | badPC | illegal => simp

/-- A step leaves the two stores alone, or they are what the fetched instruction makes of them. -/
theorem step_stores (h : step s = .next t) :
    (t.x = s.x ∧ t.mem = s.mem) ∨
      ∃ w i u, Fetches s w i ∧ exec i s = .next u ∧ t.x = u.x ∧ t.mem = u.mem := by
  cases step_cases h with
  | instr w i u hready hfetch hdec hu =>
    exact .inr ⟨w, i, u, ⟨hready, hfetch, hdec⟩, hu, by simp, by simp⟩
  | ended | atPause | halts | badPC | illegal => exact .inl (by simp)

end Step

end Sys2Proof.Machine
end

section
/-! The invariant: every launch establishes it and every step keeps it. -/

namespace Sys2Proof

theorem dispatchFunct_format {f : Fields} {i : Instr} (h : dispatchFunct f = .ok i) : i.op.format = .rType := by
  unfold dispatchFunct at h
  split at h <;> cases h <;> rfl

/-- A word that decodes to an access has its opcode, its base register and its displacement (R67, R69). -/
theorem decode_access_fields {w : Word} {i : Instr} {rt rs : Reg} {imm : BitVec 16}
    (hi : i = .lw rt rs imm ∨ i = .sw rt rs imm) (h : decode w = .ok i) :
    ((extract w).opcode = 35 ∨ (extract w).opcode = 43) ∧ regOf (extract w).rs = rs ∧ (extract w).imm = imm := by
  unfold decode dispatch at h
  split at h
  case h_1 =>
    have hf := dispatchFunct_format h
    obtain rfl | rfl := hi <;> cases hf
  case h_4 hop => obtain rfl | rfl := hi <;> cases h; exact ⟨.inl hop, rfl, rfl⟩
  case h_5 hop => obtain rfl | rfl := hi <;> cases h; exact ⟨.inr hop, rfl, rfl⟩
  all_goals obtain rfl | rfl := hi <;> cases h

namespace Machine

open Sys2Proof.Slice0

/-! ## The pc (R24) -/

theorem jumpAmount_bounds (a : BitVec 26) : 0 ≤ jumpAmount a ∧ jumpAmount a ≤ 268435452 := by
  have := a.isLt
  simp only [jumpAmount]
  omega

theorem branchOffset_bounds (imm : BitVec 16) : -131072 ≤ branchOffset imm ∧ branchOffset imm ≤ 131068 := by
  have := imm.isLt
  simp only [branchOffset, sext16]
  split <;> omega

/-- The slot after a slot of the program is within R24's range. -/
theorem pcInRange_of_succ {s t : State} (h0 : 0 ≤ s.pc) (h1 : s.pc < 2 ^ 30) (h : t.pc = s.pc + 1) : t.PcInRange := by
  simp only [State.PcInRange, h]
  omega

/-- An instruction at a slot of the program leaves the pc within R24's range. -/
theorem exec_pcInRange {i : Instr} {s t : State} (h0 : 0 ≤ s.pc) (h1 : s.pc < 2 ^ 30)
    (h : exec i s = .next t) : t.PcInRange := by
  cases exec_cases h with
  | result | load | store => exact pcInRange_of_succ h0 h1 rfl
  | loadFault | storeFault =>
    simp only [State.PcInRange, takeInvalidAddress_pc]
    omega
  | jump a =>
    have := jumpAmount_bounds a
    simp only [State.PcInRange, complete_pc, pcAfter]
    omega
  | branch rs rt imm =>
    have := branchOffset_bounds imm
    simp only [State.PcInRange, complete_pc, branchDirective]
    split <;> simp only [pcAfter] <;> omega

/-! ## The parts of the invariant -/

theorem runStateFits_of_running {s : State} (h : s.runState = .running) : s.runStateFits = true := by
  simp [State.runStateFits, h]

/-- A state that meets the invariant and is ready for a slot is not paused (R159). -/
theorem State.Inv.not_paused {s : State} (hs : s.Inv) (hr : s.Ready) : s.paused = false := by
  by_contra hp
  have hp : s.paused = true := by simpa using hp
  simpa [State.awaitsHost, (hs.paused hp).1, hp] using hr.2

/-- A slot of the program has a pc in 0..2^30-1 (D2). -/
theorem State.Inv.slot_bounds {s : State} {w : Word} (hs : s.Inv) (hf : fetch s.prog s.pc = .word w) :
    0 ≤ s.pc ∧ s.pc < 2 ^ 30 := by
  obtain ⟨h0, hlt, -⟩ := fetch_word_iff.mp hf
  have hlen : s.prog.length ≤ 2 ^ 30 := hs.prog
  omega

/-- An access out of range, just taken, is still visible at the pc (R173). -/
theorem faultingAccess_of_fetches {s : State} {w : Word} {i : Instr} {rt rs : Reg} {imm : BitVec 16}
    (hf : Fetches s w i) (hi : i = .lw rt rs imm ∨ i = .sw rt rs imm)
    (hbad : addrOk (cellIndex (s.ea rs imm)) = false) :
    s.faultingAccess (cellIndex (s.ea rs imm)) = true := by
  obtain ⟨-, hfetch, hdec⟩ := hf
  obtain ⟨hop, hrs, himm⟩ := decode_access_fields hi hdec
  simp only [State.faultingAccess, hfetch, hrs, himm, hbad]
  simpa [State.ea] using hop

/-- `faultingAccess` looks at the program, the pc and the registers only. -/
theorem takeInvalidAddress_runStateFits {s : State} {idx : Int} (h : s.faultingAccess idx = true) :
    (takeCondition (.invalidAddress idx) s).runStateFits = true := h

/-! ## The invariant -/

theorem launched_inv {l : Config.Launch} (h : l.wf = true) : (State.launched l).Inv := by
  obtain ⟨-, hmem, hprog⟩ := (launch_wf_iff l).mp h
  exact {
    mem := launchMemFrom_wf l.memInit 0 (by omega)
    prog := hprog
    pc := by simp [State.PcInRange]
    run := runStateFits_of_running rfl
    paused := by simp }

theorem pauseIfStepping_inv {s : State} (hs : s.Inv) : s.pauseIfStepping.Inv := by
  unfold State.pauseIfStepping
  split
  · next h => exact { hs with run := runStateFits_of_running h.2, paused := fun _ => h }
  · exact hs

theorem answerPause_inv {s : State} (hs : s.Inv) (hr : s.runState = .running) (ha : s.awaitsHost = true) :
    s.answerPause.Inv := by
  unfold State.answerPause
  have hmode : s.mode = .singleStep := by
    simp only [State.awaitsHost, Bool.and_eq_true, decide_eq_true_eq] at ha
    exact ha.1
  split
  · exact hs
  · exact { hs with run := runStateFits_of_running hr, paused := nofun }
  · exact { hs with run := decide_eq_true hmode, paused := nofun }
  · exact { hs with run := runStateFits_of_running hr }

theorem halt_inv {s : State} (hs : s.Inv) (hr : s.Ready) (hend : (s.prog.length : Int) ≤ s.pc) : s.halt.Inv :=
  { hs with
    run := decide_eq_true hend
    paused := by simp [hs.not_paused hr] }

theorem takeInvalidPC_inv {s : State} (hs : s.Inv) (hr : s.Ready) (hneg : s.pc < 0) :
    (takeCondition (.invalidPC s.pc) s).Inv :=
  { hs with
    run := by simpa [State.runStateFits] using hneg
    paused := by simp [hs.not_paused hr] }

theorem takeIllegal_inv {s : State} {w : Word} (hs : s.Inv) (hr : s.Ready)
    (hf : fetch s.prog s.pc = .word w) : (takeCondition (.illegalInstruction w) s).Inv := by
  obtain ⟨h0, h1⟩ := hs.slot_bounds hf
  exact { hs with
    pc := pcInRange_of_succ h0 h1 rfl
    run := runStateFits_of_running hr.1 }

/-- An instruction keeps the memory's canonical form. -/
theorem exec_mem_wf {i : Instr} {s t : State} (hm : s.mem.wf = true) (h : exec i s = .next t) :
    t.mem.wf = true := by
  obtain e | ⟨rt, rs, imm, -, hok, e⟩ := exec_mem h
  · rwa [e]
  · have hr := (addrOk_iff _).mp hok
    rw [e, State.cell]
    exact Memory.write_wf _ hm (by omega)

/-- After an instruction the run state is Running, or the access that faulted is still visible. -/
theorem exec_runStateFits {i : Instr} {s t : State} {w : Word} (hf : Fetches s w i) (h : exec i s = .next t) :
    t.runStateFits = true := by
  cases exec_cases h with
  | loadFault rt rs imm hbad =>
    exact takeInvalidAddress_runStateFits (faultingAccess_of_fetches hf (.inl rfl) hbad)
  | storeFault rt rs imm hbad =>
    exact takeInvalidAddress_runStateFits (faultingAccess_of_fetches hf (.inr rfl) hbad)
  | result | load | store | jump | branch => exact runStateFits_of_running (by simpa using hf.1.1)

theorem exec_inv {i : Instr} {s t : State} {w : Word} (hs : s.Inv) (hf : Fetches s w i)
    (h : exec i s = .next t) : t.Inv := by
  obtain ⟨h0, h1⟩ := hs.slot_bounds hf.2.1
  obtain ⟨hprog, -, hpaused, -⟩ := exec_keeps_launch_and_host h
  exact {
    mem := exec_mem_wf hs.mem h
    prog := hprog ▸ hs.prog
    pc := exec_pcInRange h0 h1 h
    run := exec_runStateFits hf h
    paused := by simp [hpaused, hs.not_paused hf.1] }

/-- Every step keeps the invariant. -/
theorem step_inv {s t : State} (hs : s.Inv) (h : step s = .next t) : t.Inv := by
  cases step_cases h with
  | ended => exact hs
  | atPause hr ha => exact answerPause_inv hs hr ha
  | halts hr hend => exact halt_inv hs hr hend
  | badPC hr hneg => exact takeInvalidPC_inv hs hr hneg
  | illegal w e hr hf => exact pauseIfStepping_inv (takeIllegal_inv hs hr hf)
  | instr w i u hr hf hd hu => exact pauseIfStepping_inv (exec_inv hs ⟨hr, hf, hd⟩ hu)

/-! ## Whole runs -/

theorem Reaches.inv {s t : State} (hs : s.Inv) (h : Reaches s t) : t.Inv := by
  obtain ⟨k, hk⟩ := h
  exact run_induction (P := State.Inv) (fun _ _ => step_inv) k hs hk

theorem Reaches.launch_kept {s t : State} (h : Reaches s t) : t.prog = s.prog ∧ t.mode = s.mode := by
  obtain ⟨k, hk⟩ := h
  refine run_induction (P := fun u => u.prog = s.prog ∧ u.mode = s.mode) ?_ k ⟨rfl, rfl⟩ hk
  intro u v ⟨hprog, hmode⟩ hstep
  obtain ⟨hprog', hmode'⟩ := step_keeps_launch hstep
  exact ⟨hprog'.trans hprog, hmode'.trans hmode⟩

end Machine
end Sys2Proof
end

section
/-! The statements of 10_state.md. -/

namespace Sys2Proof.Proofs.StateFamily

open Sys2Proof Sys2Proof.Machine Sys2Proof.Slice0

/-- Settles O9: a register reads its line of the image by definition, a cell by induction on the image. -/
theorem launchFillsRegistersAndCells : Obligations.LaunchFillsRegistersAndCells := by
  refine ⟨fun l hregs hmem hprog => ?_, reset_reg, fun _ => rfl⟩
  have hwf : l.wf = true := (launch_wf_iff l).mpr ⟨hregs, hmem, hprog⟩
  refine ⟨State.launched l, by simp [State.launch, hwf], launched_reg l, fun c _ => ?_⟩
  simpa using launchMemFrom_read l.memInit 0 c (by omega)

/-- Settles O27, by induction on the two lists, whose first entries must name the same cell. -/
theorem equalReadsMeanEqualMemories : Obligations.EqualReadsMeanEqualMemories :=
  fun _ _ => Memory.eq_of_read_eq

/-- Settles O30: the destination is the only register written, and the one fault among these seven is `lw`'s. -/
theorem registerInstructionFrame : Obligations.RegisterInstructionFrame := by
  intro i rd s t hd h
  obtain ⟨hprog, hmode, hpaused, hanswers⟩ := exec_keeps_launch_and_host h
  refine ⟨fun r hr => exec_reg_of_ne_destination h ?_, fun c => by rw [exec_mem_of_destination h hd],
    hprog, hmode, hpaused, hanswers, ?_⟩
  · rw [hd]
    exact fun e => hr (Option.some.inj e).symm
  · obtain e | ⟨rt, rs, imm, rfl | rfl, -, e⟩ := exec_runState h
    · exact .inl e
    · exact .inr ⟨rt, rs, imm, rfl, e⟩
    · simp [destination] at hd

/-- Settles O31, by the two cases of the range check. -/
theorem storeFrame : Obligations.StoreFrame := by
  intro rt rs imm s t h
  refine ⟨fun r => exec_reg_of_ne_destination h (by simp [destination]), fun hok => ?_, fun hbad c => ?_,
    exec_keeps_launch_and_host h⟩
  · cases (execSw_inRange hok).symm.trans h
    exact ⟨fun c hc => Memory.read_write_of_ne _ hc _, rfl⟩
  · cases (execSw_outOfRange hbad).symm.trans h
    rfl

/-- Settles O32: a transfer has no destination, is no store and cannot fault. -/
theorem transferFrame : Obligations.TransferFrame := by
  intro i s t hop h
  cases exec_cases h with
  | jump | branch => simp
  | load | store | loadFault | storeFault => simp [Instr.op] at hop
  | result _ rd v hres => cases i <;> simp [resultOf, Instr.op] at hres hop

/-- Settles O33: only an instruction's step touches the stores, and it writes the destination alone. -/
theorem onlyTheDestinationRegisterChanges : Obligations.OnlyTheDestinationRegisterChanges := by
  intro s t r h hne
  obtain ⟨hx, -⟩ | ⟨w, i, u, hf, hu, hx, hmem⟩ := step_stores h
  · exact absurd (State.reg_eq_of_x s t hx r) hne
  · have hd : destination i = some r := by
      by_contra hd
      exact hne ((State.reg_eq_of_x u t hx r).trans (exec_reg_of_ne_destination hu hd))
    exact ⟨hmem.trans (exec_mem_of_destination hu hd), w, i, hf, hd⟩

/-- Settles O34: only an instruction's step touches the stores, and of these only an `sw` in range writes a cell. -/
theorem onlyAStoreInRangeChangesMemory : Obligations.OnlyAStoreInRangeChangesMemory := by
  intro s t h hne
  obtain ⟨-, hmem⟩ | ⟨w, i, u, hf, hu, hx, hmem⟩ := step_stores h
  · exact absurd hmem hne
  · obtain e | ⟨rt, rs, imm, rfl, hok, e⟩ := exec_mem hu
    · exact absurd (hmem.trans e) hne
    · have hux : u.x = s.x :=
        State.x_eq_of_reg s u fun q => exec_reg_of_ne_destination hu (by simp [destination])
      exact ⟨hx.trans hux, w, rt, rs, imm, hf, hok, hmem.trans e⟩

/-- Settles O45: the launch meets the invariant and every step keeps it, with the program and the mode. -/
theorem everyReachedStateMeetsTheInvariant : Obligations.EveryReachedStateMeetsTheInvariant := by
  intro l s t hl hst
  obtain ⟨hwf, rfl⟩ := launch_next l hl
  exact ⟨hst.inv (launched_inv hwf), hst.launch_kept⟩

/-- Settles O46, by induction on the number of steps. -/
theorem noRunChangesProgramOrMode : Obligations.NoRunChangesProgramOrMode := by
  intro s t hst
  obtain ⟨hprog, hmode⟩ := hst.launch_kept
  exact ⟨hprog, hmode, fun pc => by rw [hprog]⟩

/-- Settles O8: the launched state has pc 0, which is the program's first slot. -/
theorem launchStartsRunningAtSlotZero : Obligations.LaunchStartsRunningAtSlotZero := by
  refine ⟨rfl, rfl, fun l s hl => ?_⟩
  obtain ⟨-, rfl⟩ := launch_next l hl
  refine ⟨rfl, rfl, fun w ws hprog => fetch_word_iff.mpr ?_⟩
  simp [hprog]

/-- Settles O20: `or` of a register with itself copies it, into register 0 and out of it alike. -/
theorem registerZeroIsOrdinary : Obligations.RegisterZeroIsOrdinary := by
  intro r ig s
  obtain ⟨t, ht, hreg⟩ := exec_or_self_copies 0 r ig s
  refine ⟨t, ht, hreg, fun q => ?_⟩
  obtain ⟨u, hu, hq⟩ := exec_or_self_copies q 0 ig t
  exact ⟨u, hu, hq.trans hreg⟩

end Sys2Proof.Proofs.StateFamily
end

section
/-! Addresses: the range of the byte address and the cells it reaches (R40, R43, R45), and the address calculator's
signals, whose widths hold them (R151). -/

namespace Sys2Proof.Machine

open Sys2Proof.Slice0

theorem effectiveAddress_eq (base : Word) (imm : BitVec 16) :
    effectiveAddress base imm = base.toInt + imm.toNat := rfl

/-- The range of the byte address: a signed 33-bit number (R43). -/
theorem effectiveAddress_bounds (base : Word) (imm : BitVec 16) :
    -2147483648 ≤ effectiveAddress base imm ∧ effectiveAddress base imm ≤ 2147549182 := by
  have hlo : -2147483648 ≤ base.toInt := base.le_toInt
  have hhi : base.toInt < 2147483648 := base.toInt_lt
  have himm := imm.isLt
  rw [effectiveAddress_eq]
  omega

/-- The floor of a quarter is the arithmetic shift right by two (D4). -/
theorem cellIndex_eq_shiftRight (ea : Int) : cellIndex ea = ea >>> (2 : Nat) := by
  rw [cellIndex_eq, Int.shiftRight_eq_div_pow]
  rfl

/-- The 256 cells are the byte addresses 0..1023, aligned or not (R45). -/
theorem addrOk_cellIndex_iff (ea : Int) : addrOk (cellIndex ea) = true ↔ 0 ≤ ea ∧ ea ≤ 1023 := by
  rw [addrOk_iff, cellIndex_eq]
  omega

theorem State.cell_eq (s : State) (rs : Reg) (imm : BitVec 16) :
    s.cell rs imm = (((s.reg rs).toInt + imm.toNat) / 4).toNat := by
  rw [State.cell, cellIndex_eq, State.ea, effectiveAddress_eq]

/-- The record of `lw`, from the state after its write (R153, R154). -/
theorem traceRecord_lw (rt rs : Reg) (imm : BitVec 16) (c : Nat) (s : State) :
    traceRecord (.lw rt rs imm) (some c) s =
      { word := encode (.lw rt rs imm), format := .iType, name := .lw,
        maps := some ⟨regMap [rs, rt] s, [(c, s.mem.read c)]⟩ } := rfl

/-- The record of `sw`, from the state after its write (R153, R154). -/
theorem traceRecord_sw (rt rs : Reg) (imm : BitVec 16) (c : Nat) (s : State) :
    traceRecord (.sw rt rs imm) (some c) s =
      { word := encode (.sw rt rs imm), format := .iType, name := .sw,
        maps := some ⟨regMap [rs, rt] s, [(c, s.mem.read c)]⟩ } := rfl

namespace Blocks

variable (x : Vector Word 32) (f : Fields)

/-- The 33-bit sum does not wrap: it is the exact byte address. -/
theorem ea_toInt : (ea x f).toInt = effectiveAddress (rsVal x f) f.imm := by
  have hbase : ((rsVal x f).signExtend 33).toInt = (rsVal x f).toInt := BitVec.toInt_signExtend_of_le (by decide)
  have himm : (f.imm.setWidth 33).toInt = f.imm.toNat := by
    have := f.imm.isLt
    rw [BitVec.toInt_setWidth]
    exact Int.bmod_eq_of_le_mul_two (by omega) (by omega)
  obtain ⟨hlo, hhi⟩ := effectiveAddress_bounds (rsVal x f) f.imm
  rw [ea, BitVec.toInt_add, hbase, himm, ← effectiveAddress_eq]
  exact Int.bmod_eq_of_le_mul_two (by omega) (by omega)

/-- The 31 bits kept of the shifted sum hold it whole: they are the exact cell index. -/
theorem idx_toInt : (idx x f).toInt = cellIndex (effectiveAddress (rsVal x f) f.imm) := by
  obtain ⟨hlo, hhi⟩ := effectiveAddress_bounds (rsVal x f) f.imm
  rw [idx, ← BitVec.signExtend_eq_setWidth_of_le _ (by decide),
    BitVec.toInt_signExtend_eq_toInt_bmod_of_le _ (by decide), BitVec.toInt_sshiftRight, ea_toInt,
    ← cellIndex_eq_shiftRight, cellIndex_eq]
  exact Int.bmod_eq_of_le_mul_two (by omega) (by omega)

/-- The block's range check is the model's. -/
theorem addrOk_eq : addrOk x f = Machine.addrOk (cellIndex (effectiveAddress (rsVal x f) f.imm)) := by
  rw [Bool.eq_iff_iff, addrOk_iff, addrOk, idx_toInt, Bool.and_eq_true, decide_eq_true_eq, decide_eq_true_eq]
  omega

end Blocks
end Sys2Proof.Machine
end

section
/-! The statements of 20_memory.md. -/

namespace Sys2Proof.Proofs.MemoryFamily

open Sys2Proof Sys2Proof.Machine Sys2Proof.Slice0

/-- Settles O22: the address is the integer sum, and its cell the floor of a quarter of it. -/
theorem byteAddressReachesItsCell : Obligations.ByteAddressReachesItsCell := by
  intro base imm
  obtain ⟨hlo, hhi⟩ := effectiveAddress_bounds base imm
  refine ⟨effectiveAddress_eq base imm, by omega, by omega, ?_, ?_, cellIndex_eq_shiftRight _⟩
  all_goals
    rw [cellIndex_eq]
    omega

/-- Settles O23: the address passes the range check, and `lw` in range completes with the cell's value. -/
theorem loadInRangeReadsTheCell : Obligations.LoadInRangeReadsTheCell := by
  rintro rt rs imm s _ rfl h0 h1
  have hok : addrOk (cellIndex (s.ea rs imm)) = true := (addrOk_cellIndex_iff _).mpr ⟨h0, h1⟩
  rw [← State.cell_eq]
  refine ⟨_, execLw_inRange hok, ?_⟩
  rw [complete_reg, State.reg_setReg_self, complete, traceRecord_lw]
  exact ⟨rfl, rfl⟩

/-- Settles O24: the address passes the range check, and a read of the written memory gives `x[rt]` at the cell and
the old value elsewhere. -/
theorem storeInRangeReplacesTheCell : Obligations.StoreInRangeReplacesTheCell := by
  rintro rt rs imm s _ hwf rfl h0 h1
  have hok : addrOk (cellIndex (s.ea rs imm)) = true := (addrOk_cellIndex_iff _).mpr ⟨h0, h1⟩
  rw [← State.cell_eq]
  have hself := Memory.read_write_self (s.cell rs imm) (s.reg rt) hwf
  refine ⟨_, execSw_inRange hok, fun c => ?_, ?_⟩
  · split
    · next hc => rw [hc]; exact hself
    · next hc => exact Memory.read_write_of_ne _ hc _
  · rw [complete, traceRecord_sw, hself]
    rfl

/-- Settles O58: each signal's width holds the exact value. -/
theorem addressCalculatorIsExactIn33Bits : Obligations.AddressCalculatorIsExactIn33Bits :=
  fun x f => ⟨Blocks.ea_toInt x f, Blocks.idx_toInt x f, Blocks.addrOk_eq x f⟩

end Sys2Proof.Proofs.MemoryFamily
end

section
/-! The encoding read both ways: the words the encoder forms and the fields the decoder cuts undo each other (R65,
R77), and the operation a word dispatches to, as the selects of R151 name it (R68 to R72). -/

namespace Sys2Proof

/-! ## Words and fields undo each other -/

section Words

variable (opcode : BitVec 6) (rs rt rd shamt : BitVec 5) (funct : BitVec 6) (imm : BitVec 16) (addr26 : BitVec 26)

/-- Each of the six R-type fields of an R-type word is the one it was formed from (R61, R65). -/
theorem extract_rWord : ∃ imm addr26, extract (rWord opcode rs rt rd shamt funct) =
    ⟨opcode, rs, rt, rd, shamt, funct, imm, addr26⟩ := by
  refine ⟨_, _, (Fields.mk.injEq ..).mpr
    ⟨extract_rWord_opcode .., ?rs, ?rt, ?rd, ?shamt, extract_rWord_funct .., rfl, rfl⟩⟩
  case rs => exact BitVec.eq_of_toNat_eq ((extract_rs_toNat _).trans (by rw [rWord_toNat]; omega))
  case rt => exact BitVec.eq_of_toNat_eq ((extract_rt_toNat _).trans (by rw [rWord_toNat]; omega))
  case rd => exact BitVec.eq_of_toNat_eq ((extract_rd_toNat _).trans (by rw [rWord_toNat]; omega))
  case shamt => exact BitVec.eq_of_toNat_eq ((extract_shamt_toNat _).trans (by rw [rWord_toNat]; omega))

/-- Each of the four I-type fields of an I-type word is the one it was formed from (R62, R65). -/
theorem extract_iWord : ∃ rd shamt funct addr26, extract (iWord opcode rs rt imm) =
    ⟨opcode, rs, rt, rd, shamt, funct, imm, addr26⟩ := by
  refine ⟨_, _, _, _, (Fields.mk.injEq ..).mpr ⟨extract_iWord_opcode .., ?rs, ?rt, rfl, rfl, rfl, ?imm, rfl⟩⟩
  case rs => exact BitVec.eq_of_toNat_eq ((extract_rs_toNat _).trans (by rw [iWord_toNat]; omega))
  case rt => exact BitVec.eq_of_toNat_eq ((extract_rt_toNat _).trans (by rw [iWord_toNat]; omega))
  case imm => exact BitVec.eq_of_toNat_eq ((extract_imm_toNat _).trans (by rw [iWord_toNat]; omega))

/-- Both fields of a J-type word are those it was formed from (R63, R65). -/
theorem extract_jWord : ∃ rs rt rd shamt funct imm, extract (jWord opcode addr26) =
    ⟨opcode, rs, rt, rd, shamt, funct, imm, addr26⟩ := by
  refine ⟨_, _, _, _, _, _, (Fields.mk.injEq ..).mpr
    ⟨extract_jWord_opcode .., rfl, rfl, rfl, rfl, rfl, rfl, ?addr26⟩⟩
  exact BitVec.eq_of_toNat_eq ((extract_addr26_toNat _).trans (by rw [jWord_toNat]; omega))

end Words

section Extract

variable (w : Word)

/-- The six R-type fields hold the whole word (R61, R77). -/
theorem rWord_extract : rWord (extract w).opcode (extract w).rs (extract w).rt (extract w).rd (extract w).shamt
    (extract w).funct = w := by
  apply BitVec.eq_of_toNat_eq
  rw [rWord_toNat, extract_opcode_toNat, extract_rs_toNat, extract_rt_toNat, extract_rd_toNat, extract_shamt_toNat,
    extract_funct_toNat]
  omega

/-- The four I-type fields hold the whole word (R62, R77). -/
theorem iWord_extract : iWord (extract w).opcode (extract w).rs (extract w).rt (extract w).imm = w := by
  apply BitVec.eq_of_toNat_eq
  rw [iWord_toNat, extract_opcode_toNat, extract_rs_toNat, extract_rt_toNat, extract_imm_toNat]
  omega

/-- The two J-type fields hold the whole word (R63, R77). -/
theorem jWord_extract : jWord (extract w).opcode (extract w).addr26 = w := by
  apply BitVec.eq_of_toNat_eq
  rw [jWord_toNat, extract_opcode_toNat, extract_addr26_toNat]
  omega

/-- The immediate overlaps the last three R-type fields (R65). -/
theorem extract_imm_toNat_eq : (extract w).imm.toNat =
    (extract w).rd.toNat * 2048 + (extract w).shamt.toNat * 64 + (extract w).funct.toNat := by
  rw [extract_imm_toNat, extract_rd_toNat, extract_shamt_toNat, extract_funct_toNat]
  omega

/-- The jump field overlaps both register fields and the immediate (R65). -/
theorem extract_addr26_toNat_eq : (extract w).addr26.toNat =
    (extract w).rs.toNat * 2097152 + (extract w).rt.toNat * 65536 + (extract w).imm.toNat := by
  rw [extract_addr26_toNat, extract_rs_toNat, extract_rt_toNat, extract_imm_toNat]
  omega

/-- The opcode is the top of the word, so that the quotient needs no remainder. -/
theorem extract_opcode_toNat_eq_div : (extract w).opcode.toNat = w.toNat / 67108864 := by
  rw [extract_opcode_toNat]
  omega

end Extract

/-! ## The instruction a word dispatches to -/

open Machine.Blocks (isOp)

/-- The instruction of an operation with its operands taken from the fields (R67). -/
def instrOf (f : Fields) : Op → Instr
  | .sll => .sll (regOf f.rd) (regOf f.rt) f.shamt f.rs
  | .srl => .srl (regOf f.rd) (regOf f.rt) f.shamt f.rs
  | .add => .add (regOf f.rd) (regOf f.rs) (regOf f.rt) f.shamt
  | .sub => .sub (regOf f.rd) (regOf f.rs) (regOf f.rt) f.shamt
  | .and => .and (regOf f.rd) (regOf f.rs) (regOf f.rt) f.shamt
  | .or => .or (regOf f.rd) (regOf f.rs) (regOf f.rt) f.shamt
  | .j => .j f.addr26
  | .beq => .beq (regOf f.rs) (regOf f.rt) f.imm
  | .lw => .lw (regOf f.rt) (regOf f.rs) f.imm
  | .sw => .sw (regOf f.rt) (regOf f.rs) f.imm

@[simp] theorem instrOf_op (f : Fields) (o : Op) : (instrOf f o).op = o := by cases o <;> rfl

/-- The selects of R151 compare the opcode, and for the R-type rows the funct, with those of the row's match. -/
theorem isOp_iff (f : Fields) (o : Op) : isOp f o = true ↔
    f.opcode = (extract o.pattern).opcode ∧ (o.format = .rType → f.funct = (extract o.pattern).funct) := by
  cases o <;> simp [isOp, Op.format, Op.pattern, extract]

/-- A selected operation is the one dispatched (R68 to R70). -/
theorem dispatch_of_isOp {f : Fields} {o : Op} (h : isOp f o = true) : dispatch f = .ok (instrOf f o) := by
  cases o <;> simp only [isOp, Bool.and_eq_true, beq_iff_eq] at h
  all_goals simp [dispatch, dispatchFunct, h, instrOf]

/-- The dispatch answers an instruction exactly when its operation is selected, with the operands of the fields. -/
theorem dispatch_ok_iff {f : Fields} {i : Instr} :
    dispatch f = .ok i ↔ isOp f i.op = true ∧ instrOf f i.op = i := by
  refine ⟨fun h => ?_, fun ⟨hop, hi⟩ => (dispatch_of_isOp hop).trans (congrArg _ hi)⟩
  unfold dispatch at h
  split at h
  case h_1 hopcode =>
    unfold dispatchFunct at h
    split at h
    case h_7 => cases h
    all_goals next hfunct => cases h; simp [Instr.op, instrOf, isOp, hopcode, hfunct]
  case h_6 => cases h
  all_goals next hopcode => cases h; simp [Instr.op, instrOf, isOp, hopcode]

/-- A word decodes to an instruction of the operation its fields select (R68). -/
theorem isOp_extract_iff (w : Word) (o : Op) :
    isOp (extract w) o = true ↔ ∃ i, decode w = .ok i ∧ i.op = o := by
  constructor
  · exact fun h => ⟨_, dispatch_of_isOp h, instrOf_op ..⟩
  · rintro ⟨i, hi, rfl⟩
    exact (dispatch_ok_iff.mp hi).1

/-- A word is illegal exactly when its fields select no operation (R72). -/
theorem decode_error_iff (w : Word) :
    (∃ e, decode w = .error e) ↔ ∀ o, isOp (extract w) o = false := by
  simp only [← Bool.not_eq_true, isOp_extract_iff]
  cases decode w with
  | error e => simp
  | ok i => simp

/-- A statement about every operation, one conjunct for each. -/
theorem Op.forall_iff {p : Op → Prop} : (∀ o, p o) ↔
    p .sll ∧ p .srl ∧ p .add ∧ p .sub ∧ p .and ∧ p .or ∧ p .j ∧ p .beq ∧ p .lw ∧ p .sw := by
  refine ⟨fun h => ⟨h _, h _, h _, h _, h _, h _, h _, h _, h _, h _⟩, ?_⟩
  rintro ⟨_, _, _, _, _, _, _, _, _, _⟩ o
  cases o <;> assumption

/-- No operation is selected exactly when the opcode, or the funct under opcode 0, is none of those of R69 and R70. -/
theorem forall_isOp_eq_false_iff (f : Fields) : (∀ o, isOp f o = false) ↔
    f.opcode ∉ [0, 2, 4, 35, 43] ∨ (f.opcode = 0 ∧ f.funct ∉ [0, 2, 32, 34, 36, 37]) := by
  rw [Op.forall_iff]
  by_cases hopcode : f.opcode = 0#6
  · simp [isOp, hopcode]
  · simp [isOp, hopcode]

/-! ## Decoding and encoding undo each other -/

/-- The word of a selected operation with the operands of the fields is the word the fields were cut from (R77). -/
theorem encode_instrOf_extract {w : Word} {o : Op} (h : isOp (extract w) o = true) :
    encode (instrOf (extract w) o) = w := by
  obtain ⟨hopcode, hfunct⟩ := (isOp_iff ..).mp h
  have hr := rWord_extract w
  have hi := iWord_extract w
  have hj := jWord_extract w
  rw [hopcode] at hr hi hj
  cases o with
  | j => exact hj
  | beq | lw | sw => exact hi
  | sll | srl | add | sub | and | or =>
    rw [hfunct rfl] at hr
    exact hr

/-- Encoding loses no bit of a legal word (R77). -/
theorem encode_of_decode {w : Word} {i : Instr} (h : decode w = .ok i) : encode i = w := by
  obtain ⟨hop, hi⟩ := dispatch_ok_iff.mp h
  rw [← hi]
  exact encode_instrOf_extract hop

/-- An R-type word decodes to what its six fields dispatch to, whatever the two fields that overlap them. -/
theorem decode_rWord {opcode funct : BitVec 6} {rs rt rd shamt : BitVec 5} {i : Instr}
    (h : ∀ imm addr26, dispatch ⟨opcode, rs, rt, rd, shamt, funct, imm, addr26⟩ = .ok i) :
    decode (rWord opcode rs rt rd shamt funct) = .ok i := by
  obtain ⟨imm, addr26, e⟩ := extract_rWord opcode rs rt rd shamt funct
  rw [decode, e, h]

/-- An I-type word decodes to what its four fields dispatch to, whatever the fields that overlap them. -/
theorem decode_iWord {opcode : BitVec 6} {rs rt : BitVec 5} {imm : BitVec 16} {i : Instr}
    (h : ∀ rd shamt funct addr26, dispatch ⟨opcode, rs, rt, rd, shamt, funct, imm, addr26⟩ = .ok i) :
    decode (iWord opcode rs rt imm) = .ok i := by
  obtain ⟨rd, shamt, funct, addr26, e⟩ := extract_iWord opcode rs rt imm
  rw [decode, e, h]

/-- A J-type word decodes to what its two fields dispatch to, whatever the fields that overlap them. -/
theorem decode_jWord {opcode : BitVec 6} {addr26 : BitVec 26} {i : Instr}
    (h : ∀ rs rt rd shamt funct imm, dispatch ⟨opcode, rs, rt, rd, shamt, funct, imm, addr26⟩ = .ok i) :
    decode (jWord opcode addr26) = .ok i := by
  obtain ⟨rs, rt, rd, shamt, funct, imm, e⟩ := extract_jWord opcode addr26
  rw [decode, e, h]

/-- Decoding undoes encoding, format by format. -/
theorem decode_encode (i : Instr) : decode (encode i) = .ok i := by
  cases i with
  | sll | srl | add | sub | and | or => exact decode_rWord fun _ _ => rfl
  | j => exact decode_jWord fun _ _ _ _ _ _ => rfl
  | beq | lw | sw => exact decode_iWord fun _ _ _ _ => rfl

/-! ## The rows of the opcode map -/

/-- A mask that covers the opcode keeps it. -/
theorem extract_and_opcode {m : Word} (hm : (extract m).opcode = BitVec.allOnes 6) (w : Word) :
    (extract (w &&& m)).opcode = (extract w).opcode := by
  simp only [extract] at hm ⊢
  rw [BitVec.extractLsb'_and, hm, BitVec.and_allOnes]

/-- A mask that covers the funct keeps it. -/
theorem extract_and_funct {m : Word} (hm : (extract m).funct = BitVec.allOnes 6) (w : Word) :
    (extract (w &&& m)).funct = (extract w).funct := by
  simp only [extract] at hm ⊢
  rw [BitVec.extractLsb'_and, hm, BitVec.and_allOnes]

/-- Under the mask of the six R-type rows a word agrees with a row exactly in opcode and funct (R71). -/
theorem and_mask_opcode_funct_eq_iff {p : Word} (hp : p &&& 0xFC00003F = p) (w : Word) : w &&& 0xFC00003F = p ↔
    (extract w).opcode = (extract p).opcode ∧ (extract w).funct = (extract p).funct := by
  constructor
  · rintro rfl
    exact ⟨(extract_and_opcode rfl w).symm, (extract_and_funct rfl w).symm⟩
  · rintro ⟨hopcode, hfunct⟩
    rw [← hp, and_mask_opcode_funct, and_mask_opcode_funct p, hopcode, hfunct]

/-- Under the mask of the other four rows a word agrees with a row exactly in the opcode (R71). -/
theorem and_mask_opcode_eq_iff {p : Word} (hp : p &&& 0xFC000000 = p) (w : Word) : w &&& 0xFC000000 = p ↔
    (extract w).opcode = (extract p).opcode := by
  constructor
  · rintro rfl
    exact (extract_and_opcode rfl w).symm
  · intro hopcode
    rw [← hp, and_mask_opcode, and_mask_opcode p, hopcode]

/-- A row's mask and match pick out the words whose fields select its operation (R71). -/
theorem and_mask_eq_pattern_iff_isOp (w : Word) (o : Op) :
    w &&& o.mask = o.pattern ↔ isOp (extract w) o = true := by
  rw [isOp_iff]
  cases o with
  | sll | srl | add | sub | and | or =>
    exact (and_mask_opcode_funct_eq_iff rfl w).trans (by simp [Op.format])
  | j | beq | lw | sw => exact (and_mask_opcode_eq_iff rfl w).trans (by simp [Op.format])

end Sys2Proof
end

section
/-! Steps of decoded instructions: what such a step leaves, what its record says, and what an ignored field reaches. -/

namespace Sys2Proof.Machine

open Sys2Proof.Slice0

/-- A slot whose word is an instruction runs it, then pauses if single-stepping (R91 to R93, R97). -/
theorem step_of_fetches {s u : State} {w : Word} {i : Instr} (hf : Fetches s w i) (hu : exec i s = .next u) :
    step s = .next u.pauseIfStepping := by
  obtain ⟨hready, hfetch, hdec⟩ := hf
  simp [step_ready hready, stepSlot, hfetch, hdec, hu]

/-- A register instruction completes with its result in its destination. -/
theorem exec_of_resultOf {s : State} {i : Instr} {rd : Reg} {v : Word} (h : resultOf s i = some (rd, v)) :
    exec i s = .next (writeResult i rd v s) := by
  cases i <;> cases h <;> rfl

/-- A record left by an instruction is that instruction's (R153). -/
theorem exec_trace {i : Instr} {s t : State} {r : TraceRecord} (h : exec i s = .next t) (hr : t.trace = some r) :
    ∃ cell u, r = traceRecord i cell u := by
  cases exec_cases h with
  | result | load | store | jump | branch => exact ⟨_, _, (Option.some.inj hr).symm⟩
  | loadFault | storeFault => simp at hr

/-- Only `j` leaves the reduced record, without maps (R155). -/
theorem traceRecord_maps_eq_none_iff (i : Instr) (cell : Option Nat) (s : State) :
    (traceRecord i cell s).maps = none ↔ i.op = .j := by
  cases i <;> simp [traceRecord, traceKeys, Instr.op]

/-- A step of a slot that leaves a record completed the fetched instruction, and the record is that instruction's. -/
theorem step_trace {s t : State} {r : TraceRecord} (hready : s.Ready) (h : step s = .next t)
    (hr : t.trace = some r) : ∃ w i cell u, Fetches s w i ∧ r = traceRecord i cell u := by
  cases step_cases h with
  | ended hend => exact absurd hready.1 hend
  | atPause _ hpause => simp [hready.2] at hpause
  | halts | badPC | illegal => simp at hr
  | instr w i u _ hfetch hdec hu =>
    obtain ⟨cell, v, hrec⟩ := exec_trace hu (by simpa using hr)
    exact ⟨w, i, cell, v, ⟨hready, hfetch, hdec⟩, hrec⟩

/-- Two instructions of one operation with one result and one list of keys leave the same state, up to the word that
the record shows. -/
theorem writeResult_congr {i j : Instr} (hop : i.op = j.op) (hkeys : traceKeys i = traceKeys j) (rd : Reg) (v : Word)
    (s : State) : writeResult j rd v s = { writeResult i rd v s with
      trace := (writeResult i rd v s).trace.map fun r => { r with word := encode j } } := by
  simp [writeResult, complete, traceRecord, hop, hkeys]

@[simp] theorem shiftLeft_zero (v : Word) : shiftLeft v 0 = v := by simp [shiftLeft]

/-- The all-zero word is `sll x0, x0, 0`, which writes back what `x[0]` holds (R73). -/
theorem exec_sll_zero (s : State) :
    exec (.sll 0 0 0 0) s = .next (complete (.sll 0 0 0 0) none .sequential s) := by
  rw [exec_of_resultOf rfl, shiftLeft_zero, writeResult, State.setReg_reg_self]

end Sys2Proof.Machine
end

section
/-! The statements of 30_encoding.md. -/

namespace Sys2Proof.Proofs.EncodingFamily

open Sys2Proof Sys2Proof.Machine Sys2Proof.Slice0

/-- Settles O2: the decoder cuts each field of the encoded word back out, and the dispatch names the instruction. -/
theorem decodeOfEncodeIsTheInstruction : Obligations.DecodeOfEncodeIsTheInstruction := decode_encode

/-- Settles O3: the operands are the fields, and the fields of each format hold the whole word. -/
theorem encodeOfDecodeIsTheWord : Obligations.EncodeOfDecodeIsTheWord := fun _ _ => encode_of_decode

/-- Settles O4, field by field. -/
theorem decoderCutsTheEightFields : Obligations.DecoderCutsTheEightFields := fun w =>
  ⟨extract_opcode_toNat w, extract_rs_toNat w, extract_rt_toNat w, extract_rd_toNat w, extract_shamt_toNat w,
    extract_funct_toNat w, extract_imm_toNat w, extract_addr26_toNat w, extract_imm_toNat_eq w,
    extract_addr26_toNat_eq w⟩

/-- Settles O5: mask and match look at the fields that select the operation. -/
theorem wordMatchesARowIffItIsThatInstruction : Obligations.WordMatchesARowIffItIsThatInstruction :=
  fun w o => (and_mask_eq_pattern_iff_isOp w o).trans (isOp_extract_iff w o)

/-- Settles O6: an illegal word selects none of the ten operations. -/
theorem illegalWordsAreTheUnrecognisedOnes : Obligations.IllegalWordsAreTheUnrecognisedOnes := by
  intro w
  rw [decode_error_iff, forall_isOp_eq_false_iff]
  simp [← BitVec.toNat_inj, extract_opcode_toNat_eq_div, extract_funct_toNat]

/-- Settles O53: only the fetched instruction leaves a record, and its word is the one it was decoded from. -/
theorem traceRecordIsOfTheFetchedWord : Obligations.TraceRecordIsOfTheFetchedWord := by
  intro s t r hready h hr
  obtain ⟨w, i, cell, u, hf, rfl⟩ := step_trace hready h hr
  have ⟨_, _, hdec⟩ := hf
  obtain rfl := encode_of_decode hdec
  exact ⟨i, hf, rfl, rfl, traceRecord_maps_eq_none_iff i cell u⟩

/-- Settles O1, each word by the encoder on the instruction it stands for, the illegal ones by the dispatch. -/
theorem writtenWordsDecode : Obligations.WrittenWordsDecode :=
  ⟨decode_encode (.add 3 1 2 0), decode_encode (.lw 3 1 16), decode_encode (.beq 1 2 3), by decide,
    decode_encode (.sll 3 2 4 7), decode_encode (.srl 3 2 31 0), decode_encode (.sw 3 1 16),
    decode_encode (.j 67108863), by decide, by decide⟩

/-- Settles O7: the two instructions of each pair have one operation, one result and one list of keys. -/
theorem ignoredFieldsDoNotMatter : Obligations.IgnoredFieldsDoNotMatter := by
  intro a b c sh p q s ij hij
  simp only [List.mem_cons, List.not_mem_nil, or_false] at hij
  obtain rfl | rfl | rfl | rfl | rfl | rfl := hij
  all_goals
    exact ⟨_, _, exec_of_resultOf rfl, exec_of_resultOf rfl, ⟨_, writeResult_trace .., rfl⟩,
      writeResult_congr (by rfl) (by rfl) ..⟩

/-- Settles O21: the step runs `sll x0, x0, 0`, which moves the pc and nothing the statement looks at. -/
theorem allZeroWordChangesNoRegisterOrCell : Obligations.AllZeroWordChangesNoRegisterOrCell := by
  intro s hready hfetch
  have hstep := step_of_fetches ⟨hready, hfetch, decode_encode (.sll 0 0 0 0)⟩ (exec_sll_zero s)
  refine ⟨_, hstep, ?_⟩
  simpa [pcAfter] using hready.1

end Sys2Proof.Proofs.EncodingFamily
end

section
/-! One slot's step, case by case, and what of it the run mode, the pause and the host's answers can reach. -/

namespace Sys2Proof.Machine

open Sys2Proof.Slice0

/-! ## What a slot's step can do -/

theorem State.ready_iff {s : State} :
    s.Ready ↔ s.runState = .running ∧ (s.mode = .singleStep → s.paused = false) := by
  simp [State.Ready, State.awaitsHost]

theorem step_of_pastEnd {s : State} (hready : s.Ready) (hend : (s.prog.length : Int) ≤ s.pc) :
    step s = .next s.halt := by
  simp [step_ready hready, stepSlot, fetch_pastEnd hend]

theorem step_of_negative {s : State} (hready : s.Ready) (hneg : s.pc < 0) :
    step s = .next (takeCondition (.invalidPC s.pc) s) := by
  simp [step_ready hready, stepSlot, fetch_negative hneg]

theorem step_of_illegal {s : State} {w : Word} {e : Illegal} (hready : s.Ready) (hfetch : fetch s.prog s.pc = .word w)
    (hdec : decode w = .error e) :
    step s = .next (takeCondition (.illegalInstruction w) s).pauseIfStepping := by
  simp [step_ready hready, stepSlot, hfetch, hdec]

/-- All that a step can do in a state ready for a slot: `StepCase` without the states that take no slot. -/
inductive SlotCase (s : State) : State → Prop where
  | halts : (s.prog.length : Int) ≤ s.pc → SlotCase s s.halt
  | badPC : s.pc < 0 → SlotCase s (takeCondition (.invalidPC s.pc) s)
  | illegal (w : Word) (e : Illegal) : fetch s.prog s.pc = .word w → decode w = .error e →
      SlotCase s (takeCondition (.illegalInstruction w) s).pauseIfStepping
  | instr (w : Word) (i : Instr) (u : State) : Fetches s w i → exec i s = .next u → SlotCase s u.pauseIfStepping

theorem slot_cases {s t : State} (hready : s.Ready) (h : step s = .next t) : SlotCase s t := by
  cases step_cases h with
  | ended hend => exact absurd hready.1 hend
  | atPause _ hpause => simp [hready.2] at hpause
  | halts _ hend => exact .halts hend
  | badPC _ hneg => exact .badPC hneg
  | illegal w e _ hfetch hdec => exact .illegal w e hfetch hdec
  | instr w i u _ hfetch hdec hu => exact .instr w i u ⟨hready, hfetch, hdec⟩ hu

/-- A slot of the program is fetched as it stands there (R91). -/
theorem fetch_of_getElem? {prog : List Word} {pc : Int} {w : Word} (h0 : 0 ≤ pc) (hw : prog[pc.toNat]? = some w) :
    fetch prog pc = .word w := by
  obtain ⟨hlt, -⟩ := List.getElem?_eq_some_iff.mp hw
  exact fetch_word_iff.mpr ⟨h0, by omega, hw⟩

/-- An instruction completes, with its record on the port and the run state kept, or raises InvalidAddress (R96,
R173). -/
theorem exec_completes_or_faults {i : Instr} {s t : State} (h : exec i s = .next t) :
    (t.runState = s.runState ∧ t.trace.isSome = true ∧ t.illegalStrobe = none) ∨
      ∃ idx, t = takeCondition (.invalidAddress idx) s := by
  cases exec_cases h with
  | result | load | store | jump | branch => exact .inl ⟨rfl, rfl, rfl⟩
  | loadFault | storeFault => exact .inr ⟨_, rfl⟩

/-- A slot's step leaves the machine Running, faults, or halts past the end of the program; it never quits (R25). -/
theorem step_running_faulted_or_halts {s t : State} (hready : s.Ready) (h : step s = .next t) :
    t.runState = .running ∨ (∃ c, t.runState = .faulted c) ∨ (s.prog.length : Int) ≤ s.pc ∧ t = s.halt := by
  cases slot_cases hready h with
  | halts hend => exact .inr (.inr ⟨hend, rfl⟩)
  | badPC => exact .inr (.inl ⟨_, rfl⟩)
  | illegal => exact .inl (by simp [hready.1])
  | instr w i u _ hu =>
    rw [State.pauseIfStepping_runState]
    obtain ⟨hrun, -⟩ | ⟨idx, rfl⟩ := exec_completes_or_faults hu
    · exact .inl (hrun.trans hready.1)
    · exact .inr (.inl ⟨_, rfl⟩)

/-! ## The pc -/

/-- The model's sign extension is the two's-complement reading (R9). -/
theorem sext16_eq_toInt (imm : BitVec 16) : sext16 imm = imm.toInt := by
  rw [sext16, BitVec.toInt_eq_toNat_cond]
  split <;> split <;> omega

theorem branchOffset_eq (imm : BitVec 16) : branchOffset imm = imm.toInt * 4 := by
  rw [branchOffset, sext16_eq_toInt]

/-- The pc after `beq`: the offset when the registers are equal, else the next slot (R142). -/
theorem pcAfter_branchDirective (a b : Word) (imm : BitVec 16) (pc : Int) :
    pcAfter (branchDirective a b imm) pc = if a = b then pc + imm.toInt * 4 else pc + 1 := by
  by_cases h : a = b <;> simp [branchDirective, eqSignal, h, pcAfter, branchOffset_eq]

/-- An instruction that does not fault moves the pc to the next slot or by a multiple of four slots (R95, R143). -/
theorem exec_pc {i : Instr} {s t : State} (h : exec i s = .next t) (hr : t.runState = .running) :
    t.pc = s.pc + 1 ∨ ∃ k : Int, -32768 ≤ k ∧ k ≤ 67108863 ∧ t.pc = s.pc + 4 * k := by
  cases exec_cases h with
  | result | load | store => exact .inl rfl
  | loadFault | storeFault => cases hr
  | jump a =>
    have := a.isLt
    refine .inr ⟨a.toNat, by omega, by omega, ?_⟩
    simp only [complete_pc, pcAfter, jumpAmount]
    omega
  | branch rs rt imm =>
    have hlo : -32768 ≤ imm.toInt := imm.le_toInt
    have hhi : imm.toInt < 32768 := imm.toInt_lt
    rw [complete_pc, pcAfter_branchDirective]
    split
    · exact .inr ⟨imm.toInt, hlo, by omega, by omega⟩
    · exact .inl rfl

/-! ## Runs that stand still -/

/-- Any number of steps leaves a state that one step leaves. -/
theorem run_of_step_self {s : State} (h : step s = .next s) : ∀ k : Nat, Sys2Proof.core.run k s = .next s
  | 0 => rfl
  | k + 1 => (run_succ Sys2Proof.core h k).trans (run_of_step_self h k)

/-- A paused core with no answer waiting keeps all its state (R159, R197). -/
theorem step_of_unanswered {s : State} (hr : s.runState = .running) (hm : s.mode = .singleStep)
    (hp : s.paused = true) (ha : s.answers = []) : step s = .next s := by
  rw [step_atPause hr (by simp [State.awaitsHost, hm, hp]), State.answerPause, ha]

/-! ## The run mode -/

/-- The state with another run mode, pause and queue of answers. -/
def State.withHostSide (s : State) (m : Config.Mode) (p : Bool) (as : List HostAnswer) : State :=
  { s with mode := m, paused := p, answers := as }

/-- No instruction looks at the mode, the pause or the answers (R158). -/
theorem exec_withHostSide {i : Instr} {s t : State} (m : Config.Mode) (p : Bool) (as : List HostAnswer)
    (h : exec i s = .next t) : exec i (s.withHostSide m p as) = .next (t.withHostSide m p as) := by
  cases exec_cases h with
  | result _ rd v hres => cases i <;> cases hres <;> rfl
  | load rt rs imm hok => exact execLw_inRange (s := s.withHostSide m p as) hok
  | store rt rs imm hok => exact execSw_inRange (s := s.withHostSide m p as) hok
  | loadFault rt rs imm hbad => exact execLw_outOfRange (s := s.withHostSide m p as) hbad
  | storeFault rt rs imm hbad => exact execSw_outOfRange (s := s.withHostSide m p as) hbad
  | jump | branch => rfl

theorem sameComputation_withHostSide (s : State) (m : Config.Mode) (p : Bool) (as : List HostAnswer) :
    SameComputation s (s.withHostSide m p as) := ⟨rfl, rfl, rfl, rfl, rfl, rfl⟩

/-- The pause is no part of the computation. -/
theorem SameComputation.pauseIfStepping {s t : State} (h : SameComputation s t) :
    SameComputation s.pauseIfStepping t.pauseIfStepping := by
  simpa [SameComputation] using h

end Sys2Proof.Machine
end

section
/-! What the host reads of a state (R162). -/

namespace Sys2Proof.Machine

theorem faultCause_eq_some_iff {s : State} {c : FaultCause} : s.faultCause = some c ↔ s.runState = .faulted c := by
  unfold State.faultCause
  split
  · next hrun => simp [hrun]
  · next hrun => simpa using hrun c

theorem faultValue_eq_some_iff {s : State} {v : Int} : s.faultValue = some v ↔
    s.runState = .faulted (.invalidAddress v) ∨ s.runState = .faulted (.invalidPC v) := by
  simp only [← faultCause_eq_some_iff]
  unfold State.faultValue
  split <;> simp_all

theorem readBack_eq_some_iff {s : State} {d : List Word × List Word} :
    s.readBack = some d ↔ s.runState = .halted ∧ s.dump = d := by
  simp [State.readBack]

/-- The dump holds the 32 registers in index order. -/
theorem dump_regs (s : State) : s.dump.1.length = 32 ∧ ∀ r : Reg, s.dump.1[r.val]? = some (s.reg r) := by
  simp [State.dump, State.reg]

/-- The dump holds the 256 cells in index order. -/
theorem dump_cells (s : State) : s.dump.2.length = 256 ∧ ∀ c, c < 256 → s.dump.2[c]? = some (s.mem.read c) := by
  simp +contextual [State.dump, Config.memWords]

end Sys2Proof.Machine
end

section
/-! The statements of 40_step_and_dispatch.md. -/

namespace Sys2Proof.Proofs.StepFamily

open Sys2Proof Sys2Proof.Machine Sys2Proof.Slice0

/-- Settles O44, by the cases of the step, each part of the invariant on its own. -/
theorem stepKeepsTheInvariant : Obligations.StepKeepsTheInvariant := fun _ _ => step_inv

/-- Settles O29: the directive is the offset or the next slot, and the fetch after it sees where the pc went. -/
theorem branchOnEqualMovesThePc : Obligations.BranchOnEqualMovesThePc := by
  constructor
  · intro w
    refine (and_mask_eq_pattern_iff_isOp w .beq).trans ((isOp_extract_iff w .beq).trans ⟨?_, ?_⟩)
    · rintro ⟨i, hi, hop⟩
      cases i with
      | beq rs rt imm => exact ⟨rs, rt, imm, hi⟩
      | _ => cases hop
    · rintro ⟨rs, rt, imm, hi⟩
      exact ⟨_, hi, rfl⟩
  · intro rs rt imm s
    have hpc := pcAfter_branchDirective (s.reg rs) (s.reg rt) imm s.pc
    refine ⟨_, rfl, fun heq => ?_, fun hne => ?_, rfl, fun hready hend => ?_, fun hready hneg => ?_⟩
    · exact hpc.trans (if_pos heq)
    · exact hpc.trans (if_neg hne)
    · exact ⟨_, step_of_pastEnd hready hend, rfl⟩
    · exact ⟨_, step_of_negative hready hneg, rfl⟩

/-- Settles O37: of the ways a slot's step can end, only the fetch past the end is Halted. -/
theorem stepHaltsExactlyPastTheEnd : Obligations.StepHaltsExactlyPastTheEnd := by
  intro s t hready h
  have hhalt : t.runState = .halted → (s.prog.length : Int) ≤ s.pc ∧ t = s.halt := by
    obtain hrun | ⟨c, hrun⟩ | hend := step_running_faulted_or_halts hready h
    · simp [hrun]
    · simp [hrun]
    · exact fun _ => hend
  refine ⟨⟨fun ht => (hhalt ht).1, fun hend => ?_⟩, fun ht => (hhalt ht).2⟩
  cases (step_of_pastEnd hready hend).symm.trans h
  rfl

/-- Settles O40: one step leaves a terminal state, so any number does. -/
theorem terminalStatesNeverChange : Obligations.TerminalStatesNeverChange := by
  intro s hterminal
  refine run_of_step_self (step_terminal ?_)
  obtain hrun | hrun | ⟨c, hrun⟩ := hterminal <;> simp [hrun]

/-- Settles O41: without single-stepping nothing pauses, and only a host's answer quits. -/
theorem runAllAlwaysTakesItsNextStep : Obligations.RunAllAlwaysTakesItsNextStep := by
  intro s hmode hrun
  have hready : s.Ready := State.ready_iff.mpr ⟨hrun, by simp [hmode]⟩
  obtain ⟨t, ht, -⟩ := step_spec s
  obtain ⟨-, hmode'⟩ := step_keeps_launch ht
  refine ⟨t, ht, step_ready hready ▸ ht, fun hr => State.ready_iff.mpr ⟨hr, by simp [hmode', hmode]⟩, ?_⟩
  obtain hr | ⟨c, hr⟩ | ⟨-, rfl⟩ := step_running_faulted_or_halts hready ht
  · simp [hr]
  · simp [hr]
  · nofun

/-- Settles O42, by the cases of a slot's step. -/
theorem pcMovesByOneOrAMultipleOfFour : Obligations.PcMovesByOneOrAMultipleOfFour := by
  intro s t hready h hr
  cases slot_cases hready h with
  | halts | badPC => cases hr
  | illegal => exact .inl (by simp)
  | instr w i u _ hu =>
    rw [State.pauseIfStepping_runState] at hr
    rw [State.pauseIfStepping_pc]
    exact exec_pc hu hr

/-- Settles O48: the slot's step sets the pause if the machine is Running, and a pause without an answer stands
still. -/
theorem singleStepPausesAfterEachStep : Obligations.SingleStepPausesAfterEachStep := by
  intro s t hmode hready h
  have hunpaused : s.paused = false := (State.ready_iff.mp hready).2 hmode
  obtain ⟨-, hmode'⟩ := step_keeps_launch h
  have hpause : t.paused = true ↔ t.runState = .running := by
    cases slot_cases hready h with
    | halts | badPC => simp [hunpaused]
    | illegal => simp [hready.1, hmode]
    | instr w i u _ hu =>
      obtain ⟨-, hum, hup, -⟩ := exec_keeps_launch_and_host hu
      simp [hum, hup, hunpaused, hmode]
  exact ⟨hpause, fun hr ha => run_of_step_self (step_of_unanswered hr (hmode'.trans hmode) (hpause.mpr hr) ha)⟩

/-- Settles O52: fetch, decoder and instruction look at neither mode nor pause, and the pause computes nothing. -/
theorem modeDoesNotChangeWhatAStepComputes : Obligations.ModeDoesNotChangeWhatAStepComputes := by
  intro s t m hready h
  have hready' : (s.withHostSide m false s.answers).Ready := State.ready_iff.mpr ⟨hready.1, fun _ => rfl⟩
  cases slot_cases hready h with
  | halts hend => exact ⟨_, step_of_pastEnd hready' hend, sameComputation_withHostSide s.halt ..⟩
  | badPC hneg =>
    exact ⟨_, step_of_negative hready' hneg, sameComputation_withHostSide (takeCondition (.invalidPC s.pc) s) ..⟩
  | illegal w e hfetch hdec =>
    exact ⟨_, step_of_illegal hready' hfetch hdec, SameComputation.pauseIfStepping
      (sameComputation_withHostSide (takeCondition (.illegalInstruction w) s) ..)⟩
  | instr w i u hf hu =>
    exact ⟨_, step_of_fetches ⟨hready', hf.2⟩ (exec_withHostSide m false s.answers hu),
      SameComputation.pauseIfStepping (sameComputation_withHostSide u ..)⟩

/-- Settles O55: the instruction that completes records, the illegal word strobes, every other case ends the run. -/
theorem eachStepRecordsStrobesOrEnds : Obligations.EachStepRecordsStrobesOrEnds := by
  intro s t hready h
  cases slot_cases hready h with
  | halts | badPC => exact .inr (.inr ⟨nofun, rfl, rfl⟩)
  | illegal w e hfetch hdec => exact .inr (.inl ⟨by simp [hready.1], by simp, w, e, hfetch, hdec, by simp⟩)
  | instr w i u hf hu =>
    obtain ⟨hrun, htrace, hstrobe⟩ | ⟨idx, rfl⟩ := exec_completes_or_faults hu
    · exact .inl ⟨by simp [hrun, hready.1], by simpa using htrace, by simpa using hstrobe, w, i, hf⟩
    · exact .inr (.inr (by simp))

/-- Settles O35: the slot is fetched and decoded, and the pause is the one of single-step mode. -/
theorem stepRunsTheDecodedInstruction : Obligations.StepRunsTheDecodedInstruction := by
  intro s w i hrun hunpaused h0 hw hdec
  obtain ⟨t, ht, -⟩ := exec_spec i s
  exact ⟨t, ht, step_of_fetches ⟨State.ready_iff.mpr ⟨hrun, hunpaused⟩, fetch_of_getElem? h0 hw, hdec⟩ ht⟩

/-- Settles O56: each of the host's views is a test of the run state, and the dump lists the two stores in order. -/
theorem readBackOnlyAfterHalted : Obligations.ReadBackOnlyAfterHalted := by
  intro s
  refine ⟨?_, fun rs ms hread => ?_, rfl, fun c => faultCause_eq_some_iff, fun v => faultValue_eq_some_iff⟩
  · simp [Option.isSome_iff_exists, readBack_eq_some_iff]
  · obtain ⟨-, hdump⟩ := readBack_eq_some_iff.mp hread
    obtain ⟨hregs, hreg⟩ := dump_regs s
    obtain ⟨hcells, hcell⟩ := dump_cells s
    rw [hdump] at hregs hreg hcells hcell
    exact ⟨hregs, hcells, hreg, hcell⟩

end Sys2Proof.Proofs.StepFamily
end

section
/-! Register instructions: what each of the six leaves of a state (R110, R120), and the wrapped results of `add` and
`sub` as a pattern and as a number (R8, R116). -/

namespace Sys2Proof

/-- `wrap32` reads the 32-bit pattern of an integer as a signed number (R8). -/
theorem toInt_ofInt_eq_wrap32 (v : Int) : (BitVec.ofInt 32 v).toInt = wrap32 v := by
  have hpattern : (BitVec.ofInt 32 v).toNat = u32 v := by simp [u32]
  rw [BitVec.toInt_eq_toNat_cond, hpattern, wrap32, s32]
  split <;> split <;> omega

namespace Machine

open Sys2Proof.Slice0

theorem aluAdd_eq_add (a b : Word) : aluAdd a b = a + b :=
  BitVec.eq_of_toInt_eq (by rw [aluAdd, BitVec.toInt_ofInt, BitVec.toInt_add])

theorem aluSub_eq_sub (a b : Word) : aluSub a b = a - b :=
  BitVec.eq_of_toInt_eq (by rw [aluSub, BitVec.toInt_ofInt, BitVec.toInt_sub])

/-- The record of a register instruction is of R-Type and lists what the table of R154 says. -/
theorem format_and_traceKeys_of_resultOf {s : State} {i : Instr} {rd : Reg} {v : Word}
    (h : resultOf s i = some (rd, v)) : i.op.format = .rType ∧ traceKeys i = some (touched i) := by
  cases i with
  | sll | srl | add | sub | and | or => exact ⟨rfl, rfl⟩
  | j | beq | lw | sw => cases h

/-- A register instruction completes with its result in its destination and leaves everything else (R110, R120). -/
theorem exec_writesOnlyResult {s : State} {i : Instr} {rd : Reg} {v : Word} (h : resultOf s i = some (rd, v)) :
    ∃ t, exec i s = .next t ∧ t.reg rd = v ∧ WritesOnlyResult i (touched i) rd s t := by
  obtain ⟨hformat, hkeys⟩ := format_and_traceKeys_of_resultOf h
  have hreg : (writeResult i rd v s).reg rd = v := by simp
  refine ⟨_, exec_of_resultOf h, hreg, ?_⟩
  rw [WritesOnlyResult, hreg, writeResult, complete, traceRecord, hformat, hkeys]
  rfl

end Machine
end Sys2Proof
end

section
/-! The statements of 41_alu_rtype.md. -/

namespace Sys2Proof.Proofs.AluFamily

open Sys2Proof Sys2Proof.Machine Sys2Proof.Slice0

/-- Settles O16: mask and match select the operation by opcode and funct, and the result is the `and` of the two
patterns. -/
theorem andWritesTheBitwiseAnd : Obligations.AndWritesTheBitwiseAnd := by
  constructor
  · intro w
    refine (and_mask_eq_pattern_iff_isOp w .and).trans ⟨fun h => ⟨_, _, _, _, dispatch_of_isOp h⟩, ?_⟩
    rintro ⟨rd, rs, rt, ig, h⟩
    exact (dispatch_ok_iff.mp h).1
  · intro rd rs rt ig s
    obtain ⟨t, ht, hreg, hrest⟩ := exec_writesOnlyResult (s := s) (i := .and rd rs rt ig) rfl
    exact ⟨t, ht, fun k _ => by rw [hreg, aluAnd, BitVec.getLsbD_and], hrest⟩

/-- Settles O17: mask and match select the operation by opcode and funct, and the result is the `or` of the two
patterns. -/
theorem orWritesTheBitwiseOr : Obligations.OrWritesTheBitwiseOr := by
  constructor
  · intro w
    refine (and_mask_eq_pattern_iff_isOp w .or).trans ⟨fun h => ⟨_, _, _, _, dispatch_of_isOp h⟩, ?_⟩
    rintro ⟨rd, rs, rt, ig, h⟩
    exact (dispatch_ok_iff.mp h).1
  · intro rd rs rt ig s
    obtain ⟨t, ht, hreg, hrest⟩ := exec_writesOnlyResult (s := s) (i := .or rd rs rt ig) rfl
    exact ⟨t, ht, fun k _ => by rw [hreg, aluOr, BitVec.getLsbD_or], hrest⟩

/-- Settles O14: the integer sum's pattern is the sum of the patterns, and its value is the wrapped sum. -/
theorem addWritesTheWrappedSum : Obligations.AddWritesTheWrappedSum := by
  intro rd rs rt ig s
  obtain ⟨t, ht, hreg, hrest⟩ := exec_writesOnlyResult (s := s) (i := .add rd rs rt ig) rfl
  exact ⟨t, ht, hreg.trans (aluAdd_eq_add ..), (congrArg BitVec.toInt hreg).trans (toInt_ofInt_eq_wrap32 _), hrest⟩

/-- Settles O15: as for `add`, with the difference. -/
theorem subWritesTheWrappedDifference : Obligations.SubWritesTheWrappedDifference := by
  intro rd rs rt ig s
  obtain ⟨t, ht, hreg, hrest⟩ := exec_writesOnlyResult (s := s) (i := .sub rd rs rt ig) rfl
  exact ⟨t, ht, hreg.trans (aluSub_eq_sub ..), (congrArg BitVec.toInt hreg).trans (toInt_ofInt_eq_wrap32 _), hrest⟩

end Sys2Proof.Proofs.AluFamily
end

section
/-! Shifts: the two results as the bit vector's own logical shifts, their patterns, bits and sign (R121 to R123). -/

namespace Sys2Proof.Machine

variable (v : Word) (sh : BitVec 5)

theorem shiftLeft_eq : shiftLeft v sh = v <<< sh.toNat :=
  BitVec.eq_of_toNat_eq (by rw [shiftLeft, BitVec.toNat_ofNat, BitVec.toNat_shiftLeft, Nat.shiftLeft_eq])

theorem shiftRight_eq : shiftRight v sh = v >>> sh.toNat := by
  rw [shiftRight, ← Nat.shiftRight_eq_div_pow, ← BitVec.toNat_ushiftRight, BitVec.ofNat_toNat, BitVec.setWidth_eq]

theorem toNat_shiftLeft : (shiftLeft v sh).toNat = v.toNat * 2 ^ sh.toNat % 2 ^ 32 :=
  BitVec.toNat_ofNat ..

theorem toNat_shiftRight : (shiftRight v sh).toNat = v.toNat / 2 ^ sh.toNat := by
  rw [shiftRight_eq, BitVec.toNat_ushiftRight, Nat.shiftRight_eq_div_pow]

/-- Each bit comes from `sh` places below, the lowest `sh` bits are zero (R121). -/
theorem getLsbD_shiftLeft {k : Nat} (hk : k < 32) :
    (shiftLeft v sh).getLsbD k = if sh.toNat ≤ k then v.getLsbD (k - sh.toNat) else false := by
  rw [shiftLeft_eq, BitVec.getLsbD_shiftLeft]
  split <;> simp [*]

/-- Each bit comes from `sh` places above, the highest `sh` bits are zero (R122). -/
theorem getLsbD_shiftRight (k : Nat) :
    (shiftRight v sh).getLsbD k = if k + sh.toNat ≤ 31 then v.getLsbD (k + sh.toNat) else false := by
  rw [shiftRight_eq, BitVec.getLsbD_ushiftRight, Nat.add_comm]
  split
  · rfl
  · exact BitVec.getLsbD_of_ge _ _ (by omega)

/-- A distance of 1 or more clears the sign bit (R122). -/
theorem toInt_shiftRight_nonneg (hsh : 1 ≤ sh.toNat) : 0 ≤ (shiftRight v sh).toInt := by
  have hmsb : (shiftRight v sh).msb = false := by
    rw [BitVec.msb_eq_getLsbD_last, getLsbD_shiftRight, if_neg (by omega)]
  rw [BitVec.toInt_eq_toNat_of_msb hmsb]
  exact Int.natCast_nonneg _

/-- A distance of 0 copies (R122). -/
theorem shiftRight_of_toNat_eq_zero (hsh : sh.toNat = 0) : shiftRight v sh = v := by
  rw [shiftRight_eq, hsh, BitVec.ushiftRight_zero]

end Sys2Proof.Machine
end

section
/-! The statements of 42_shift.md. -/

namespace Sys2Proof.Proofs.ShiftFamily

open Sys2Proof Sys2Proof.Machine Sys2Proof.Slice0

/-- Settles O18: the destination holds the left shift, whose pattern is the product and whose bits moved up. -/
theorem sllShiftsUpWithZeroFill : Obligations.SllShiftsUpWithZeroFill := by
  intro rd rt sh ig s
  obtain ⟨t, ht, hreg, hrest⟩ := exec_writesOnlyResult (s := s) (i := .sll rd rt sh ig) rfl
  refine ⟨t, ht, ?_, fun k hk => ?_, hrest⟩
  · rw [hreg, toNat_shiftLeft]
  · rw [hreg, getLsbD_shiftLeft _ _ hk]

/-- Settles O19: mask and match select the operation by opcode and funct, and the destination holds the logical right
shift, whose pattern is the quotient. -/
theorem srlShiftsDownWithZeroFill : Obligations.SrlShiftsDownWithZeroFill := by
  constructor
  · intro w
    refine (and_mask_eq_pattern_iff_isOp w .srl).trans ⟨fun h => ⟨_, _, _, _, dispatch_of_isOp h⟩, ?_⟩
    rintro ⟨rd, rt, sh, ig, h⟩
    exact (dispatch_ok_iff.mp h).1
  · intro rd rt sh ig s
    obtain ⟨t, ht, hreg, hrest⟩ := exec_writesOnlyResult (s := s) (i := .srl rd rt sh ig) rfl
    refine ⟨t, ht, ?_, fun k _ => ?_, fun hsh => ?_, fun hsh => ?_, hrest⟩
    · rw [hreg, toNat_shiftRight]
    · rw [hreg, getLsbD_shiftRight]
    · rw [hreg]
      exact toInt_shiftRight_nonneg _ _ hsh
    · rw [hreg, shiftRight_of_toNat_eq_zero _ _ hsh]

end Sys2Proof.Proofs.ShiftFamily
end

section
/-! Store, then load: what a load gives is decided by the cell its address reaches, whichever base and displacement
reach it (R135). -/

namespace Sys2Proof.Machine

open Sys2Proof.Slice0

/-- A load whose byte address lies in cell `c` completes and gives that cell's value (R132, R45). -/
theorem exec_lw_of_reaches_cell (rt : Reg) {rs : Reg} {imm : BitVec 16} {s : State} {c : Int}
    (hc : ((s.reg rs).toInt + imm.toNat) / 4 = c) (h0 : 0 ≤ c) (h1 : c ≤ 255) :
    ∃ u, exec (.lw rt rs imm) s = .next u ∧ u.reg rt = s.mem.read c.toNat := by
  obtain ⟨u, hu, hreg, -⟩ := Proofs.MemoryFamily.loadInRangeReadsTheCell rt rs imm s _ rfl (by omega) (by omega)
  exact ⟨u, hu, hc ▸ hreg⟩

end Sys2Proof.Machine
end

section
/-! The statements of 43_load_store.md. -/

namespace Sys2Proof.Proofs.LoadStoreFamily

open Sys2Proof Sys2Proof.Machine Sys2Proof.Slice0

/-- Settles O26: the store leaves its value in the cell, and every load that reaches the cell while it still reads the
same gives it. The load through the same base is such a load, since a store keeps its base register. -/
theorem storeThenLoadGivesTheValue : Obligations.StoreThenLoadGivesTheValue := by
  intro rv rs rd rb off off' s hwf h0 h1
  obtain ⟨t, ht, hread, -⟩ := MemoryFamily.storeInRangeReplacesTheCell rv rs off s _ hwf rfl h0 (by omega)
  have hstored : t.mem.read (s.cell rs off) = s.reg rv := by rw [hread, State.cell_eq, if_pos rfl]
  have hload : ∀ (q : Reg) (imm : BitVec 16) (t' : State),
      t'.mem.read (s.cell rs off) = t.mem.read (s.cell rs off) →
      ((t'.reg q).toInt + imm.toNat) / 4 = ((s.reg rs).toInt + off.toNat) / 4 →
      ∃ u, exec (.lw rd q imm) t' = .next u ∧ u.reg rd = s.reg rv := fun q imm t' hkept hsame => by
    obtain ⟨u, hu, hreg⟩ := exec_lw_of_reaches_cell rd hsame (by omega) h1
    rw [← State.cell_eq, hkept, hstored] at hreg
    exact ⟨u, hu, hreg⟩
  have hbase : t.reg rs = s.reg rs := exec_reg_of_ne_destination ht nofun
  exact ⟨t, ht, hload rs off t rfl (by rw [hbase]), hload rb off'⟩

end Sys2Proof.Proofs.LoadStoreFamily
end

section
/-! Control transfer: the rows of the opcode map as the decoder reads them, and which instruction can take the pc below
slot 0. -/

namespace Sys2Proof

/-- A row's mask and match pick out the words that decode to its operation (R71). -/
theorem and_mask_eq_pattern_iff_decode (w : Word) (o : Op) :
    w &&& o.mask = o.pattern ↔ ∃ i, decode w = .ok i ∧ i.op = o :=
  (and_mask_eq_pattern_iff_isOp w o).trans (isOp_extract_iff w o)

theorem Instr.op_eq_j_iff (i : Instr) : i.op = .j ↔ ∃ n, i = .j n := by
  cases i <;> simp [Instr.op]

/-- A field with a negative signed reading has bit 15 set and reads as 65536 below its pattern (R9). -/
theorem bit15_and_toInt_eq_of_toInt_neg {imm : BitVec 16} (h : imm.toInt < 0) :
    32768 ≤ imm.toNat ∧ imm.toInt = (imm.toNat : Int) - 65536 := by
  rw [BitVec.toInt_eq_toNat_cond] at h ⊢
  split at h <;> omega

namespace Machine

/-- Of the instructions, only a taken `beq` with a negative offset takes the pc from a slot to below slot 0 (R175). -/
theorem exec_pc_negative {i : Instr} {s t : State} (h0 : 0 ≤ s.pc) (h : exec i s = .next t) (hneg : t.pc < 0) :
    ∃ rs rt imm, i = .beq rs rt imm ∧ s.reg rs = s.reg rt ∧ 32768 ≤ imm.toNat ∧
      t.pc = s.pc + ((imm.toNat : Int) - 65536) * 4 := by
  cases exec_cases h with
  | result | load | store => exact absurd hneg (Int.not_lt.mpr (Int.le_add_one h0))
  | loadFault | storeFault => exact absurd hneg (Int.not_lt.mpr h0)
  | jump a =>
    obtain ⟨hforward, -⟩ := jumpAmount_bounds a
    exact absurd hneg (Int.not_lt.mpr (Int.add_nonneg h0 hforward))
  | branch rs rt imm =>
    rw [complete_pc, pcAfter_branchDirective] at hneg ⊢
    split at hneg
    · next heq =>
      obtain ⟨hbit, hvalue⟩ := bit15_and_toInt_eq_of_toInt_neg (imm := imm) (by omega)
      exact ⟨rs, rt, imm, rfl, heq, hbit, by rw [if_pos heq, hvalue]⟩
    · omega

end Machine
end Sys2Proof
end

section
/-! The statements of 44_control_transfer.md. -/

namespace Sys2Proof.Proofs.TransferFamily

open Sys2Proof Sys2Proof.Machine Sys2Proof.Slice0

/-- Settles O28: the row of `j` selects the words that decode to a `j`, and the fetch after it sees the moved pc. -/
theorem jumpAddsFourTimesItsField : Obligations.JumpAddsFourTimesItsField := by
  constructor
  · intro w
    refine (and_mask_eq_pattern_iff_decode w .j).trans ?_
    simp only [Instr.op_eq_j_iff]
    exact ⟨fun ⟨_, hdec, n, hn⟩ => ⟨n, hn ▸ hdec⟩, fun ⟨n, hdec⟩ => ⟨_, hdec, n, rfl⟩⟩
  · intro n s
    exact ⟨_, rfl, rfl, fun hready hend => ⟨_, step_of_pastEnd hready hend, rfl⟩⟩

/-- Settles O43: a step moves the pc only by the next slot or by the fetched instruction, and of the instructions only
a taken `beq` with a negative offset moves it below slot 0. -/
theorem onlyATakenBranchMakesThePcNegative : Obligations.OnlyATakenBranchMakesThePcNegative := by
  intro s t h0 h hneg
  cases step_cases h with
  | ended | halts | badPC => exact absurd hneg (Int.not_lt.mpr h0)
  | atPause =>
    rw [State.answerPause_pc] at hneg
    exact absurd hneg (Int.not_lt.mpr h0)
  | illegal =>
    rw [State.pauseIfStepping_pc] at hneg
    exact absurd hneg (Int.not_lt.mpr (Int.le_add_one h0))
  | instr w i u hready hfetch hdec hu =>
    rw [State.pauseIfStepping_pc] at hneg ⊢
    obtain ⟨rs, rt, imm, rfl, hmove⟩ := exec_pc_negative h0 hu hneg
    exact ⟨w, rs, rt, imm, ⟨hready, hfetch, hdec⟩, hmove⟩

end Sys2Proof.Proofs.TransferFamily
end

section
/-! What the host's answers and the ports can reach: a slot's step looks at neither (R157, R160). -/

namespace Sys2Proof.Machine

open Sys2Proof.Slice0

/-! ## The host's answers -/

/-- In `Run_All` mode the core never waits for the host (R160). -/
theorem awaitsHost_of_runAll {s : State} (hmode : s.mode = .runAll) : s.awaitsHost = false := by
  simp [State.awaitsHost, hmode]

/-- The state with other answers waiting. -/
def State.withAnswers (s : State) (as : List HostAnswer) : State := { s with answers := as }

section WithAnswers

variable {s t : State} (as : List HostAnswer)

/-- An instruction moves no answer and looks at none. -/
theorem exec_withAnswers {i : Instr} (h : exec i s = .next t) :
    exec i (s.withAnswers as) = .next (t.withAnswers as) := by
  obtain ⟨-, hmode, hpaused, -⟩ := exec_keeps_launch_and_host h
  have hside : t.withHostSide s.mode s.paused as = t.withAnswers as := by
    rw [← hmode, ← hpaused]
    rfl
  exact hside ▸ exec_withHostSide s.mode s.paused as h

theorem pauseIfStepping_withAnswers :
    (s.withAnswers as).pauseIfStepping = s.pauseIfStepping.withAnswers as := by
  by_cases h : s.mode = .singleStep ∧ s.runState = .running <;> simp [State.pauseIfStepping, State.withAnswers, h]

/-- A slot's step leaves the answers waiting and looks at none (R159). -/
theorem step_withAnswers (hready : s.Ready) (h : step s = .next t) :
    step (s.withAnswers as) = .next (t.withAnswers as) ∧ t.answers = s.answers := by
  cases slot_cases hready h with
  | halts hend => exact ⟨step_of_pastEnd (s := s.withAnswers as) hready hend, rfl⟩
  | badPC hneg => exact ⟨step_of_negative (s := s.withAnswers as) hready hneg, rfl⟩
  | illegal w e hfetch hdec =>
    rw [← pauseIfStepping_withAnswers]
    exact ⟨step_of_illegal (s := s.withAnswers as) hready hfetch hdec, by simp⟩
  | instr w i u hf hu =>
    obtain ⟨-, -, -, hanswers⟩ := exec_keeps_launch_and_host hu
    rw [← pauseIfStepping_withAnswers]
    exact ⟨step_of_fetches (s := s.withAnswers as) hf (exec_withAnswers as hu), by simpa using hanswers⟩

end WithAnswers

/-! ## The ports -/

/-- The state with something else on the trace port and the illegal strobe. -/
def State.withPorts (s : State) (tr : Option TraceRecord) (strobe : Option IllegalReport) : State :=
  { s with trace := tr, illegalStrobe := strobe }

/-- A state that agrees with another but for the ports is that state with its own ports. -/
theorem eq_withPorts_of_sameButPorts {s s' : State} (h : SameButPorts s s') :
    s' = s.withPorts s'.trace s'.illegalStrobe := by
  obtain ⟨hx, hmem, hpc, hrun, hprog, hmode, hpaused, hanswers⟩ := h
  rw [State.withPorts, ← hx, ← hmem, ← hpc, ← hrun, ← hprog, ← hmode, ← hpaused, ← hanswers]

section WithPorts

variable (s : State) (tr : Option TraceRecord) (strobe : Option IllegalReport)

theorem sameButPorts_withPorts : SameButPorts s (s.withPorts tr strobe) := ⟨rfl, rfl, rfl, rfl, rfl, rfl, rfl, rfl⟩

/-- An instruction presents its own record or clears both ports, so it leaves the same state whatever they showed. -/
theorem exec_withPorts (i : Instr) : exec i (s.withPorts tr strobe) = exec i s := by
  obtain ⟨t, ht, hc⟩ := exec_spec i s
  rw [ht]
  cases hc with
  | result i rd v hres => cases i <;> cases hres <;> rfl
  | load rt rs imm hok => exact execLw_inRange (s := s.withPorts tr strobe) hok
  | store rt rs imm hok => exact execSw_inRange (s := s.withPorts tr strobe) hok
  | loadFault rt rs imm hbad => exact execLw_outOfRange (s := s.withPorts tr strobe) hbad
  | storeFault rt rs imm hbad => exact execSw_outOfRange (s := s.withPorts tr strobe) hbad
  | jump | branch => rfl

/-- So does a slot's step. -/
theorem stepSlot_withPorts : stepSlot (s.withPorts tr strobe) = stepSlot s := by
  simp only [stepSlot, exec_withPorts]
  rfl

/-- The host's answer does the same at a pause, whatever the ports show. -/
theorem sameButPorts_answerPause : SameButPorts s.answerPause (s.withPorts tr strobe).answerPause := by
  simp only [State.answerPause, State.withPorts]
  split <;> exact ⟨rfl, rfl, rfl, rfl, rfl, rfl, rfl, rfl⟩

/-- A step, whatever the ports show before it, leaves states that differ at most in what they show. -/
theorem step_withPorts {t : State} (h : step s = .next t) :
    ∃ t', step (s.withPorts tr strobe) = .next t' ∧ SameButPorts t t' := by
  by_cases hready : s.Ready
  · refine ⟨t, ?_, sameButPorts_withPorts t t.trace t.illegalStrobe⟩
    have hready' : (s.withPorts tr strobe).Ready := hready
    rw [step_ready hready', stepSlot_withPorts, ← step_ready hready, h]
  · by_cases hrun : s.runState = .running
    · have hpause : s.awaitsHost = true := by simpa [State.Ready, hrun] using hready
      cases (step_atPause hrun hpause).symm.trans h
      exact ⟨_, step_atPause hrun hpause, sameButPorts_answerPause ..⟩
    · cases (step_terminal hrun).symm.trans h
      exact ⟨_, step_terminal hrun, sameButPorts_withPorts ..⟩

end WithPorts

end Sys2Proof.Machine
end

section
/-! The hardware blocks (R150 to R152): what each signal is for a word that selects an operation, and that one pass of a
word computes what an instruction or an illegal word leaves. -/

namespace Sys2Proof.Machine

/-! ## The pc on 32 bits (R24) -/

/-- A 32-bit register holds every pc within R24's range. -/
theorem State.PcInRange.toInt_ofInt {s : State} (h : s.PcInRange) : (BitVec.ofInt 32 s.pc).toInt = s.pc := by
  obtain ⟨hlo, hhi⟩ := h
  rw [BitVec.toInt_ofInt]
  exact Int.bmod_eq_of_le_mul_two (by omega) (by omega)

/-- The scaling by 4 of R67 is the shift by two. -/
theorem ofInt_mul_four (v : Int) : BitVec.ofInt 32 (v * 4) = BitVec.ofInt 32 v <<< 2 := by
  rw [BitVec.ofInt_mul, BitVec.shiftLeft_eq_mul_twoPow]
  rfl

theorem ofInt_jumpAmount (a : BitVec 26) : BitVec.ofInt 32 (jumpAmount a) = a.setWidth 32 <<< 2 := by
  rw [jumpAmount, ofInt_mul_four, BitVec.ofInt_natCast, BitVec.ofNat_toNat]

theorem ofInt_branchOffset (imm : BitVec 16) : BitVec.ofInt 32 (branchOffset imm) = imm.signExtend 32 <<< 2 := by
  rw [branchOffset_eq, ofInt_mul_four, BitVec.signExtend]

namespace Blocks

/-! ## The selects and what follows from them alone -/

section Selects

variable {f : Fields} {o : Op}

/-- No second select is on (R151). -/
theorem isOp_eq_false_of_ne (h : isOp f o = true) {o' : Op} (hne : o ≠ o') : isOp f o' = false := by
  refine Bool.eq_false_iff.mpr fun h' => hne ?_
  have hinstr : instrOf f o = instrOf f o' := Except.ok.inj ((dispatch_of_isOp h).symm.trans (dispatch_of_isOp h'))
  simpa using congrArg Instr.op hinstr

/-- The ten selects are one-hot (R151). -/
theorem isOp_eq_decide (h : isOp f o = true) (o' : Op) : isOp f o' = decide (o = o') := by
  by_cases hne : o = o'
  · simp [← hne, h]
  · simp [hne, isOp_eq_false_of_ne h hne]

theorem illegal_of_isOp (h : isOp f o = true) : illegal f = false := by
  cases o <;> simp [illegal, allOps, h]

theorem fmt_of_isOp (h : isOp f o = true) : fmt f = some o.format := by
  simp only [fmt, allOps, isOp_eq_decide h]
  cases o <;> rfl

theorem isRType_of_isOp (h : isOp f o = true) : isRType f = decide (o.format = .rType) := by
  simp only [isRType, isOp_eq_decide h]
  cases o <;> rfl

end Selects

/-! ## The other signals -/

section Signals

variable {x : Vector Word 32} {mem : Memory} {f : Fields} {o : Op}

theorem fault_of_addrOk (hok : addrOk x f = true) : fault x f = false := by
  simp [fault, hok]

/-- Only `lw` and `sw` fault (R173). -/
theorem fault_of_ne (h : isOp f o = true) (hlw : o ≠ .lw) (hsw : o ≠ .sw) : fault x f = false := by
  simp [fault, isOp_eq_false_of_ne h hlw, isOp_eq_false_of_ne h hsw]

/-- Only the R-type instructions and `lw` write a register (R152). -/
theorem nextX_of_ne (h : isOp f o = true) (hr : o.format ≠ .rType) (hlw : o ≠ .lw) : nextX x mem f = x := by
  simp [nextX, wen, isRType_of_isOp h, hr, isOp_eq_false_of_ne h hlw]

theorem nextX_of_rType (h : isOp f o = true) (hr : o.format = .rType) :
    nextX x mem f = x.set (regOf f.rd).val (aluOut x f) := by
  simp [nextX, wen, waddr, wdata, isRType_of_isOp h, hr]

/-- The ALU and the shift unit give an R-type instruction's result, for the register that `rd` names (R151). -/
theorem resultOf_instrOf (s : State) (h : isOp f o = true) (hr : o.format = .rType) :
    resultOf s (instrOf f o) = some (regOf f.rd, aluOut s.x f) := by
  cases o with
  | j | beq | lw | sw => cases hr
  | sll | srl | add | sub | and | or =>
    simp [resultOf, instrOf, aluOut, isOp_eq_decide h, shiftLeft_eq, shiftRight_eq, aluAdd_eq_add, aluSub_eq_sub,
      aluAnd, aluOr, State.reg, rsVal, rtVal]

/-- Only `sw` writes a cell (R152). -/
theorem nextMem_of_ne (h : isOp f o = true) (hsw : o ≠ .sw) : nextMem x mem f = mem := by
  simp [nextMem, memWe, isOp_eq_false_of_ne h hsw]

/-- In range, the low 8 bits of the index are the whole index (R151). -/
theorem memIdx_toNat (hok : addrOk x f = true) :
    (memIdx x f).toNat = (cellIndex (effectiveAddress (rsVal x f) f.imm)).toNat := by
  obtain ⟨h0, h1⟩ := (addrOk_iff _).mp (addrOk_eq x f ▸ hok)
  rw [← idx_toInt, BitVec.toInt_eq_toNat_cond] at h0 h1 ⊢
  rw [memIdx, BitVec.toNat_setWidth]
  split at h0 <;> split <;> omega

theorem nextX_of_lw (h : isOp f .lw = true) (hok : addrOk x f = true) : nextX x mem f =
    x.set (regOf f.rt).val (mem.read (cellIndex (effectiveAddress (rsVal x f) f.imm)).toNat) := by
  have hr : isRType f = false := isRType_of_isOp h
  simp [nextX, wen, waddr, wdata, memRdata, hr, h, hok, memIdx_toNat hok]

theorem nextMem_of_sw (h : isOp f .sw = true) (hok : addrOk x f = true) : nextMem x mem f =
    mem.write (cellIndex (effectiveAddress (rsVal x f) f.imm)).toNat (rtVal x f) := by
  simp [nextMem, memWe, h, hok, memIdx_toNat hok]

/-! ## The next pc, on 32 bits what the directive gives (R95) -/

variable (pc : Int)

theorem pcNext_of_ne (hfault : fault x f = false) (h : isOp f o = true) (hj : o ≠ .j) (hbeq : o ≠ .beq) :
    pcNext x (BitVec.ofInt 32 pc) f = BitVec.ofInt 32 (pcAfter .sequential pc) := by
  simp [pcNext, hfault, isOp_eq_false_of_ne h hj, isOp_eq_false_of_ne h hbeq, pcAfter, BitVec.ofInt_add]

theorem pcNext_of_j (h : isOp f .j = true) : pcNext x (BitVec.ofInt 32 pc) f =
    BitVec.ofInt 32 (pcAfter (.absoluteJump (jumpAmount f.addr26)) pc) := by
  simp [pcNext, fault_of_ne h, h, pcAfter, BitVec.ofInt_add, ofInt_jumpAmount]

theorem pcNext_of_beq (h : isOp f .beq = true) : pcNext x (BitVec.ofInt 32 pc) f =
    BitVec.ofInt 32 (pcAfter (branchDirective (rsVal x f) (rtVal x f) f.imm) pc) := by
  have hj : isOp f .j = false := isOp_eq_false_of_ne h (by decide)
  by_cases heq : rsVal x f = rtVal x f <;>
    simp [pcNext, fault_of_ne h, h, hj, eq, branchDirective, eqSignal, heq, pcAfter, BitVec.ofInt_add,
      ofInt_branchOffset]

end Signals

/-! ## One pass of a word through the blocks -/

/-- `t` is what the blocks compute from `s` for the word `w`, the pc on its 32 bits (R150, R151). -/
structure Pass (s : State) (w : Word) (t : State) : Prop where
  x : t.x = nextX s.x s.mem (extract w)
  mem : t.mem = nextMem s.x s.mem (extract w)
  pc : BitVec.ofInt 32 t.pc = pcNext s.x (BitVec.ofInt 32 s.pc) (extract w)
  runState : t.runState = if fault s.x (extract w) then
    .faulted (.invalidAddress (idx s.x (extract w)).toInt) else s.runState
  strobe : t.illegalStrobe = if illegal (extract w) then some ⟨w, s.pc⟩ else none
  format : t.trace.map (·.format) = if fault s.x (extract w) then none else fmt (extract w)

variable {s t : State} {w : Word}

/-- The pause is no part of a pass. -/
theorem Pass.pauseIfStepping (h : Pass s w t) : Pass s w t.pauseIfStepping where
  x := by simpa using h.x
  mem := by simpa using h.mem
  pc := by simpa using h.pc
  runState := by simpa using h.runState
  strobe := by simpa using h.strobe
  format := by simpa using h.format

/-- A word that selects no operation moves the pc on and strobes (R171). -/
theorem pass_illegal (h : ∀ o, isOp (extract w) o = false) :
    Pass s w (takeCondition (.illegalInstruction w) s) where
  x := by simp [nextX, wen, isRType, h]
  mem := by simp [nextMem, memWe, h]
  pc := by simp [pcNext, fault, h, BitVec.ofInt_add]
  runState := by simp [fault, h]
  strobe := by simp [illegal, h]
  format := by simp [fault, fmt, allOps, h]

/-- An access out of range stops the machine with its 31-bit index and writes nothing (R173). -/
theorem pass_invalidAddress {o : Op} (hop : isOp (extract w) o = true) (ho : o = .lw ∨ o = .sw)
    (hbad : Machine.addrOk (cellIndex (effectiveAddress (rsVal s.x (extract w)) (extract w).imm)) = false) :
    Pass s w (takeCondition
      (.invalidAddress (cellIndex (effectiveAddress (rsVal s.x (extract w)) (extract w).imm))) s) := by
  have hnotOk : addrOk s.x (extract w) = false := (addrOk_eq ..).trans hbad
  have hfault : fault s.x (extract w) = true := by
    obtain rfl | rfl := ho <;> simp [fault, hop, hnotOk]
  have hr : isRType (extract w) = false := by
    obtain rfl | rfl := ho <;> exact isRType_of_isOp hop
  exact {
    x := by simp [nextX, wen, hr, hnotOk]
    mem := by simp [nextMem, memWe, hnotOk]
    pc := by simp [pcNext, hfault]
    runState := by simp [hfault, idx_toInt]
    strobe := by simp [illegal_of_isOp hop]
    format := by simp [hfault] }

/-- An instruction that completes leaves the run state and records its format; what is left to compare is the write and
the pc. -/
theorem pass_complete {i : Instr} {cell : Option Nat} {d : Directive} (hop : isOp (extract w) i.op = true)
    (hfault : fault s.x (extract w) = false) (hrun : t.runState = s.runState)
    (hx : t.x = nextX s.x s.mem (extract w)) (hmem : t.mem = nextMem s.x s.mem (extract w))
    (hpc : BitVec.ofInt 32 (pcAfter d t.pc) = pcNext s.x (BitVec.ofInt 32 s.pc) (extract w)) :
    Pass s w (complete i cell d t) where
  x := hx
  mem := hmem
  pc := hpc
  runState := by simp [hfault, hrun]
  strobe := by simp [illegal_of_isOp hop]
  format := by simp [hfault, fmt_of_isOp hop, traceRecord]

/-- The blocks compute what an instruction leaves, whether it completes or faults. -/
theorem pass_exec {i : Instr} (hdec : decode w = .ok i) (hexec : exec i s = .next t) : Pass s w t := by
  obtain ⟨hop, hi⟩ := dispatch_ok_iff.mp hdec
  cases exec_cases hexec with
  | result _ rd v hres =>
    obtain ⟨hr, -⟩ := format_and_traceKeys_of_resultOf hres
    obtain ⟨rfl, rfl⟩ : regOf (extract w).rd = rd ∧ aluOut s.x (extract w) = v := by
      simpa [resultOf_instrOf s hop hr] using (congrArg (resultOf s) hi).trans hres
    have hne {o : Op} (ho : o.format ≠ .rType) : i.op ≠ o := fun e => ho (e ▸ hr)
    have hfault := fault_of_ne (x := s.x) hop (hne (by decide)) (hne (by decide))
    exact pass_complete hop hfault rfl (nextX_of_rType hop hr).symm (nextMem_of_ne hop (hne (by decide))).symm
      (pcNext_of_ne s.pc hfault hop (hne (by decide)) (hne (by decide))).symm
  | load rt rs imm hin =>
    cases hi
    have hok := (addrOk_eq s.x (extract w)).trans hin
    have hfault := fault_of_addrOk hok
    exact pass_complete hop hfault rfl (nextX_of_lw hop hok).symm (nextMem_of_ne hop nofun).symm
      (pcNext_of_ne s.pc hfault hop nofun nofun).symm
  | store rt rs imm hin =>
    cases hi
    have hok := (addrOk_eq s.x (extract w)).trans hin
    have hfault := fault_of_addrOk hok
    exact pass_complete hop hfault rfl (nextX_of_ne hop nofun nofun).symm (nextMem_of_sw hop hok).symm
      (pcNext_of_ne s.pc hfault hop nofun nofun).symm
  | loadFault rt rs imm hbad =>
    cases hi
    exact pass_invalidAddress hop (.inl rfl) hbad
  | storeFault rt rs imm hbad =>
    cases hi
    exact pass_invalidAddress hop (.inr rfl) hbad
  | jump a =>
    cases hi
    exact pass_complete hop (fault_of_ne hop nofun nofun) rfl (nextX_of_ne hop nofun nofun).symm
      (nextMem_of_ne hop nofun).symm (pcNext_of_j s.pc hop).symm
  | branch rs rt imm =>
    cases hi
    exact pass_complete hop (fault_of_ne hop nofun nofun) rfl (nextX_of_ne hop nofun nofun).symm
      (nextMem_of_ne hop nofun).symm (pcNext_of_beq s.pc hop).symm

/-- The blocks compute what the step of a slot's word leaves. -/
theorem pass_step (hready : s.Ready) (hfetch : fetch s.prog s.pc = .word w) (hstep : step s = .next t) :
    Pass s w t := by
  cases hdec : decode w with
  | error e =>
    cases (step_of_illegal hready hfetch hdec).symm.trans hstep
    exact (pass_illegal ((decode_error_iff w).mp ⟨e, hdec⟩)).pauseIfStepping
  | ok i =>
    obtain ⟨u, hexec, -⟩ := exec_spec i s
    cases (step_of_fetches ⟨hready, hfetch, hdec⟩ hexec).symm.trans hstep
    exact (pass_exec hdec hexec).pauseIfStepping

end Blocks
end Sys2Proof.Machine
end

section
/-! The statements of 45_ports_trace_host.md. -/

namespace Sys2Proof.Proofs.PortsFamily

open Sys2Proof Sys2Proof.Machine Sys2Proof.Slice0

/-- Settles O50: a state in `Run_All` mode has ended or is ready for a slot, whose step looks at no answer. -/
theorem runAllIgnoresTheHostsAnswers : Obligations.RunAllIgnoresTheHostsAnswers := by
  intro s t as hmode h
  by_cases hrun : s.runState = .running
  · exact step_withAnswers as ⟨hrun, awaitsHost_of_runAll hmode⟩ h
  · cases (step_terminal hrun).symm.trans h
    exact ⟨step_terminal hrun, rfl⟩

/-- Settles O51: a slot's step and a terminal state do not look at the ports, and an answer of the host leaves them or
clears them. -/
theorem portsDoNotFeedBack : Obligations.PortsDoNotFeedBack := by
  intro s s' t hsame h
  rw [eq_withPorts_of_sameButPorts hsame]
  exact step_withPorts s _ _ h

/-- Settles O57: one pass of the word computes what the step leaves, and the invariant keeps the new pc within its
32-bit register. -/
theorem blocksComputeWhatTheStepDoes : Obligations.BlocksComputeWhatTheStepDoes := by
  intro s w hs hready hfetch
  obtain ⟨t, hstep, -⟩ := step_spec s
  obtain ⟨hx, hmem, hpc, hrun, hstrobe, hformat⟩ := Blocks.pass_step hready hfetch hstep
  refine ⟨t, hstep, isOp_extract_iff w, hx, hmem, ?_, hready.1 ▸ hrun, hstrobe, hformat⟩
  rw [← hpc, (step_inv hs hstep).pc.toInt_ofInt]

end Sys2Proof.Proofs.PortsFamily
end

section
/-! The statements of 60_exceptions.md. -/

namespace Sys2Proof.Proofs.ExceptionsFamily

open Sys2Proof Sys2Proof.Machine Sys2Proof.Slice0

/-- Settles O36: the step takes the condition and pauses, which leaves the pc of a last slot at the end of the
program; in `Run_All` mode the machine is then ready for the step that halts. -/
theorem stepSkipsAnIllegalWord : Obligations.StepSkipsAnIllegalWord := by
  intro s w e hrun hunpaused h0 hw hdec
  have hready : s.Ready := State.ready_iff.mpr ⟨hrun, hunpaused⟩
  have hstep := step_of_illegal hready (fetch_of_getElem? h0 hw) hdec
  refine ⟨_, hstep, by simp, by simp, by simp, by simp, by simp [hrun], by simp, by simp, by simp, by simp,
    fun hlast => ?_, fun hrunAll hlast => ?_⟩
  · exact fetch_pastEnd (by simp [hlast])
  · exact step_of_pastEnd ⟨by simp [hrun], awaitsHost_of_runAll (by simp [hrunAll])⟩ (by simp [hlast])

end Sys2Proof.Proofs.ExceptionsFamily
end

section
/-! What single operations leave, for the statements that no other family holds: the default launch, an access out of
range, an answer at the pause, and the maps of a record. -/

namespace Sys2Proof.Machine

open Sys2Proof.Slice0

/-! ## Launch -/

/-- An empty image leaves every register zero (R31). -/
theorem launchRegs_nil : launchRegs [] = Vector.replicate 32 0 := by
  simp [launchRegs, Vector.ext_iff]

/-- The reset state is the one a launch with every parameter at its default leaves (R190). -/
theorem launched_default : State.launched {} = State.reset :=
  congrArg (fun x => { State.reset with x := x }) launchRegs_nil

theorem launch_refused_iff (l : Config.Launch) :
    State.launch l = .refused .launchDoesNotFit ↔ ¬ l.wf = true := by
  obtain ⟨hwf, hl⟩ | ⟨hwf, hl⟩ := launch_cases l <;> simp [hwf, hl]

/-! ## Loads and stores out of range -/

/-- An InvalidAddress raised by an instruction is that of an `lw` or `sw` out of range, which did nothing else (R173,
R177). -/
theorem exec_invalidAddress {i : Instr} {s t : State} {idx : Int} (hrun : s.runState = .running)
    (h : exec i s = .next t) (ht : t.runState = .faulted (.invalidAddress idx)) :
    t = takeCondition (.invalidAddress idx) s ∧ (idx < 0 ∨ 255 < idx) ∧ (i.op = .lw ∨ i.op = .sw) := by
  cases exec_cases h with
  | result | load | store | jump | branch => simp [hrun] at ht
  | loadFault rt rs imm hbad =>
    cases ht
    exact ⟨rfl, (addrOk_eq_false_iff _).mp hbad, .inl rfl⟩
  | storeFault rt rs imm hbad =>
    cases ht
    exact ⟨rfl, (addrOk_eq_false_iff _).mp hbad, .inr rfl⟩

/-! ## The answers at the pause (R160) -/

section Answers

variable {s : State} {rest : List HostAnswer}

theorem answerPause_cont (h : s.answers = .cont :: rest) : s.answerPause =
    { s with paused := false, answers := rest, trace := none, illegalStrobe := none } := by
  rw [State.answerPause, h]

theorem answerPause_quit (h : s.answers = .quit :: rest) : s.answerPause =
    { s with runState := .userQuit, paused := false, answers := rest, trace := none, illegalStrobe := none } := by
  rw [State.answerPause, h]

theorem answerPause_other (h : s.answers = .other :: rest) : s.answerPause = { s with answers := rest } := by
  rw [State.answerPause, h]

end Answers

/-! ## The keys of a register map (R154) -/

theorem mem_insertKey {k r : Reg} : ∀ {l : List Reg}, r ∈ insertKey k l ↔ r = k ∨ r ∈ l
  | [] => by simp [insertKey]
  | a :: l => by
    unfold insertKey
    split
    · simp
    · split
      · next hka => simp [hka]
      · rw [List.mem_cons, mem_insertKey, List.mem_cons]
        exact or_left_comm

theorem pairwise_insertKey {k : Reg} : ∀ {l : List Reg}, l.Pairwise (· < ·) → (insertKey k l).Pairwise (· < ·)
  | [], _ => List.pairwise_singleton ..
  | a :: l, h => by
    obtain ⟨ha, hl⟩ := List.pairwise_cons.mp h
    unfold insertKey
    split
    · next hka =>
      refine List.pairwise_cons.mpr ⟨fun r hr => ?_, h⟩
      obtain rfl | hr := List.mem_cons.mp hr
      · exact hka
      · exact hka.trans (ha r hr)
    · split
      · exact h
      · next hlt hne =>
        refine List.pairwise_cons.mpr ⟨fun r hr => ?_, pairwise_insertKey hl⟩
        obtain rfl | hr := mem_insertKey.mp hr
        · exact lt_of_le_of_ne (not_lt.mp hlt) (Ne.symm hne)
        · exact ha r hr

theorem mem_keySet {r : Reg} : ∀ {ks : List Reg}, r ∈ keySet ks ↔ r ∈ ks
  | [] => Iff.rfl
  | k :: ks => by
    rw [List.mem_cons, ← mem_keySet (ks := ks)]
    exact mem_insertKey

/-- The keys are in rising order, so each stands once (log 9). -/
theorem pairwise_keySet : ∀ ks : List Reg, (keySet ks).Pairwise (· < ·)
  | [] => .nil
  | _ :: ks => pairwise_insertKey (pairwise_keySet ks)

/-! ## The maps of a record (R153, R154) -/

theorem regMap_map_fst (ks : List Reg) (t : State) : (regMap ks t).map Prod.fst = keySet ks := by
  simp [regMap, Function.comp_def]

theorem mem_regMap {ks : List Reg} {t : State} {k : Reg} {v : Word} :
    (k, v) ∈ regMap ks t ↔ k ∈ ks ∧ v = t.reg k := by
  simp [regMap, mem_keySet, eq_comm]

/-- Both maps of a record are read from one state: the registers of the table of R154 and the cell reached. -/
theorem maps_traceRecord {i : Instr} {cell : Option Nat} {s : State} {m : TraceMaps}
    (h : (traceRecord i cell s).maps = some m) :
    m.regs = regMap (touched i) s ∧ m.mem = cell.toList.map fun c => (c, s.mem.read c) := by
  cases i with
  | j => cases h
  | _ =>
    cases h
    exact ⟨rfl, rfl⟩

theorem touchedCells_of_resultOf {s : State} {i : Instr} {rd : Reg} {v : Word} (h : resultOf s i = some (rd, v)) :
    touchedCells s i = [] := by
  cases i <;> cases h <;> rfl

/-- The record an instruction leaves is read from the state it leaves (D11), and names the cell it reached. -/
theorem exec_trace_touchedCells {i : Instr} {s t : State} {r : TraceRecord} (h : exec i s = .next t)
    (hr : t.trace = some r) : ∃ cell : Option Nat, cell.toList = touchedCells s i ∧ r = traceRecord i cell t := by
  cases exec_cases h with
  | result _ _ _ hres => exact ⟨none, (touchedCells_of_resultOf hres).symm, (Option.some.inj hr).symm⟩
  | load | store => exact ⟨some _, rfl, (Option.some.inj hr).symm⟩
  | jump | branch => exact ⟨none, rfl, (Option.some.inj hr).symm⟩
  | loadFault | storeFault => simp at hr

end Sys2Proof.Machine
end

section
/-! The statements that remain: launch, faults, the pc, the pause and the maps of a record. -/

namespace Sys2Proof.Proofs.OtherFamily

open Sys2Proof Sys2Proof.Machine Sys2Proof.Slice0

/-- Settles O13: a launch that is not refused fits, and the state of a launch that fits meets the invariant. -/
theorem everyLaunchMeetsTheInvariant : Obligations.EveryLaunchMeetsTheInvariant := by
  intro l s hl
  obtain ⟨hwf, rfl⟩ := launch_next l hl
  exact launched_inv hwf

/-- Settles O25: the address fails the range check, and the index presented is its cell's. -/
theorem accessOutOfRangeStopsTheMachine : Obligations.AccessOutOfRangeStopsTheMachine := by
  rintro rt rs imm s _ rfl hrange i hi
  have hbad : addrOk (cellIndex (s.ea rs imm)) = false := by
    rw [← Bool.not_eq_true, addrOk_cellIndex_iff, State.ea, effectiveAddress_eq]
    omega
  rw [← effectiveAddress_eq, ← State.ea, ← cellIndex_eq]
  simp only [List.mem_cons, List.not_mem_nil, or_false] at hi
  obtain rfl | rfl := hi
  · exact execLw_outOfRange hbad
  · exact execSw_outOfRange hbad

/-- Settles O38: a negative pc is fetched as such, and of the ways a slot's step can end no other presents a pc. -/
theorem stepFaultsExactlyOnANegativePc : Obligations.StepFaultsExactlyOnANegativePc := by
  intro s t hready h p
  have hfault : s.pc < 0 → t = takeCondition (.invalidPC s.pc) s := fun hneg =>
    Host.Outcome.next.inj (h.symm.trans (step_of_negative hready hneg))
  refine ⟨⟨fun ht => ?_, fun ⟨hneg, hp⟩ => by rw [hfault hneg, hp]; rfl⟩, hfault⟩
  cases slot_cases hready h with
  | halts => cases ht
  | badPC hneg =>
    cases ht
    exact ⟨hneg, rfl⟩
  | illegal => simp [hready.1] at ht
  | instr w i u _ hu =>
    rw [State.pauseIfStepping_runState] at ht
    obtain ⟨hrun, -⟩ | ⟨idx, rfl⟩ := exec_completes_or_faults hu
    · simp [hrun, hready.1] at ht
    · cases ht

/-- Settles O39: of the ways a slot's step can end, only an instruction's presents an index. -/
theorem invalidAddressIsPrecise : Obligations.InvalidAddressIsPrecise := by
  intro s t idx hready h ht
  cases slot_cases hready h with
  | halts | badPC => cases ht
  | illegal => simp [hready.1] at ht
  | instr w i u hf hu =>
    rw [State.pauseIfStepping_runState] at ht
    obtain ⟨rfl, hidx, hop⟩ := exec_invalidAddress hready.1 hu ht
    exact ⟨hidx, by simp, by simp, by simp, by simp, by simp, w, i, hf, hop⟩

/-- Settles O47: R24's range, which every step keeps, is within 32 bits. -/
theorem pcFitsA32BitRegister : Obligations.PcFitsA32BitRegister :=
  fun _ _ hs h => ⟨hs.pc.toInt_ofInt, (step_inv hs h).pc.toInt_ofInt⟩

/-- Settles O54: the fetched instruction leaves the record, read from the state it leaves, and its keys are a rising
list of the registers of the table. -/
theorem traceMapsListWhatTheInstructionTouched : Obligations.TraceMapsListWhatTheInstructionTouched := by
  intro s t r m i hf h hr hm
  obtain ⟨u, hu, -⟩ := exec_spec i s
  cases (step_of_fetches hf hu).symm.trans h
  obtain ⟨cell, hcell, rfl⟩ := exec_trace_touchedCells hu (by simpa using hr)
  obtain ⟨hregs, hmem⟩ := maps_traceRecord hm
  rw [hregs, regMap_map_fst]
  refine ⟨pairwise_keySet _, fun k v => ?_, ?_⟩
  · rw [mem_regMap, State.pauseIfStepping_reg]
  · rw [hmem, hcell, State.pauseIfStepping_mem]

/-- Settles O10: a launch fits or is refused, and it fits when none of the three bounds is exceeded. -/
theorem launchRefusesExactlyWhatDoesNotFit : Obligations.LaunchRefusesExactlyWhatDoesNotFit := by
  intro l
  rw [launch_refused_iff, launch_wf_iff, Config.progMax]
  omega

/-- Settles O11: the default launch fits, and its empty images are the reset state's. -/
theorem launchWithDefaultsIsReset : Obligations.LaunchWithDefaultsIsReset :=
  congrArg Host.Outcome.next launched_default

/-- Settles O12: the reset state is that of the default launch. -/
theorem resetMeetsTheInvariant : Obligations.ResetMeetsTheInvariant :=
  launched_default.subst (motive := State.Inv) (launched_inv rfl)

/-- Settles O49: the step at a pause is the host's answer, and each answer says what is left of the state. -/
theorem hostAnswersAtThePause : Obligations.HostAnswersAtThePause := by
  intro s rest hrun hmode hpaused
  have hstep : step s = .next s.answerPause := step_atPause hrun (by simp [State.awaitsHost, hmode, hpaused])
  refine ⟨fun ha => ?_, fun ha => ?_, fun ha => ?_⟩
  · rw [answerPause_cont ha] at hstep
    exact ⟨_, hstep, State.ready_iff.mpr ⟨hrun, fun _ => rfl⟩, rfl, rfl, rfl, rfl⟩
  · rw [answerPause_quit ha] at hstep
    exact ⟨_, hstep, rfl, rfl, rfl, rfl, rfl, rfl⟩
  · rw [answerPause_other ha] at hstep
    exact hstep

end Sys2Proof.Proofs.OtherFamily
end
